-- ==== Sys2Proof/Word.lean ====
section
/-! DEFINITION. The two value widths of the engine (00_scope.md R9, R11). -/

namespace Sys2Proof

/-- `BYTE`: an unsigned 8-bit value (R9, R11). -/
abbrev Byte := BitVec 8

/-- `WORD`: an unsigned 16-bit value (R9, R11). -/
abbrev Word := BitVec 16

end Sys2Proof
end

