-- ==== Sys2Proof/Config.lean ====
section
/-! DEFINITION. The engine's parameters with the values this hardware takes (00_scope.md R9), and the free values for
what the spec calls undefined (10_state.md R33 to R35, R37). -/

namespace Sys2Proof.Config

/-- `BROADCAST_ID` (R9). -/
@[simp] abbrev broadcastId : Byte := 0x00

/-- `EXC_MARKER`, combined with the function code by bitwise OR (R9, 90_conflicts.md C3). -/
@[simp] abbrev excMarker : Byte := 0x80

/-- `MAX_FRAME`: the largest frame read per step, in bytes (R9, R91). -/
@[simp] abbrev maxFrame : Nat := 256

/-- `MAX_REPLY`: the largest reply frame in bytes, counting the two CRC bytes (R9, R124). -/
@[simp] abbrev maxReply : Nat := 256

/-- The largest size a bank may be registered with (R9, R26). -/
@[simp] abbrev maxBankSize : Nat := 65536

/-- `CRC_POLY`, reflected form (R9, R80). -/
@[simp] abbrev crcPoly : Word := 0xA001

/-- `CRC_INIT` (R9, R80). -/
@[simp] abbrev crcInit : Word := 0xFFFF

/-- `EXC_ILLEGAL_FUNCTION` (R9, R152). PRESUMED in the source's own terms: the number comes from the Modbus standard
(R10), log entry 10. -/
@[simp] abbrev excIllegalFunction : Byte := 0x01

/-- `EXC_ILLEGAL_DATA_ADDRESS` (R9, R152), log entry 10. -/
@[simp] abbrev excIllegalDataAddress : Byte := 0x02

/-- `EXC_ILLEGAL_DATA_VALUE` (R9, R152), log entry 10. -/
@[simp] abbrev excIllegalDataValue : Byte := 0x03

/-- The WR_COIL value that writes 1 (43_write_single.md R130), log entry 12. -/
@[simp] abbrev coilOn : Word := 0xFF00

/-- The WR_COIL value that writes 0 (43_write_single.md R130), log entry 12. -/
@[simp] abbrev coilOff : Word := 0x0000

/-- FREE VALUE: what a byte buffer of the datapath (frame, body or reply buffer) holds outside a transaction, which
10_state.md R33 and R35 leave undefined. It has no body, so nothing can be proved of it (log entry 6). -/
opaque freeBytes : Nat → List Byte

/-- FREE VALUE: what the CRC accumulator holds outside a computation (10_state.md R34, R37; log entry 6). -/
opaque freeWord : Nat → Word

end Sys2Proof.Config
end

