-- ==== Sys2Proof/Syntax.lean ====
section
/-! DEFINITION. The instructions: one constructor per row of spec/opcode_table.json (30_encoding.md R68, R69). Every
request carries its unit id `P[0]`, which decides the reply's id byte and the broadcast rule (R99, R102). -/

namespace Sys2Proof

/-- A decoded request body. Field names are those of the formats REQ_FIXED (R62) and REQ_MULTI (R63). -/
inductive Instr where
  /-- RD_COILS, 0x01 (42_read.md R125). -/
  | rdCoils (id : Byte) (addr qty : Word)
  /-- RD_DISCRETE, 0x02 (42_read.md R126). -/
  | rdDiscrete (id : Byte) (addr qty : Word)
  /-- RD_HOLDING, 0x03 (42_read.md R127). -/
  | rdHolding (id : Byte) (addr qty : Word)
  /-- RD_INPUT, 0x04 (42_read.md R128). -/
  | rdInput (id : Byte) (addr qty : Word)
  /-- WR_COIL, 0x05 (43_write_single.md R130). -/
  | wrCoil (id : Byte) (addr value : Word)
  /-- WR_REG, 0x06 (43_write_single.md R131). -/
  | wrReg (id : Byte) (addr value : Word)
  /-- WR_COILS, 0x0F (44_write_multiple.md R142): `bc` is the declared byte count, `data` the bytes `P[7..len(P))`. -/
  | wrCoils (id : Byte) (addr qty : Word) (bc : Byte) (data : List Byte)
  /-- WR_REGS, 0x10 (44_write_multiple.md R143). -/
  | wrRegs (id : Byte) (addr qty : Word) (bc : Byte) (data : List Byte)
  /-- ILLEGAL_FUNCTION: the catch-all row, every code outside the eight (30_encoding.md R69, 41_frame_dispatch.md R97).
  The rest of the body has no meaning (R97: "whatever the body length") and is not kept (log entry 23). -/
  | illegalFunction (id fc : Byte)
deriving DecidableEq, Repr

end Sys2Proof
end

