-- ==== Sys2Proof/WellFormed.lean ====
section
/-! DEFINITION. Which instructions a frame can carry: the checks on the syntax alone. A request whose operands a
handler rejects (a bad quantity, a wrong byte count) IS well formed: it is decoded and takes its exception. -/

namespace Sys2Proof

/-- The eight function codes of 30_encoding.md R68. -/
abbrev legalCodes : List Byte := [0x01, 0x02, 0x03, 0x04, 0x05, 0x06, 0x0F, 0x10]

/-- The data bytes of a REQ_MULTI body fit in a frame of `MAX_FRAME` bytes (R63, R91). -/
abbrev fitsFrame (data : List Byte) : Bool := decide (7 + data.length ≤ Config.maxFrame)

/-- A well-formed instruction: REQ_MULTI data fit in one frame, and the catch-all carries none of the eight codes. -/
def Instr.wf : Instr → Bool
  | .rdCoils _ _ _ => true
  | .rdDiscrete _ _ _ => true
  | .rdHolding _ _ _ => true
  | .rdInput _ _ _ => true
  | .wrCoil _ _ _ => true
  | .wrReg _ _ _ => true
  | .wrCoils _ _ _ _ data => fitsFrame data
  | .wrRegs _ _ _ _ data => fitsFrame data
  | .illegalFunction _ fc => !legalCodes.contains fc

end Sys2Proof
end

