-- ==== Sys2Proof/Decode.lean ====
section
/-! DEFINITION. The decoder from a body `P` (a frame without its CRC) to an instruction, and the encoder, both written
from the formats of 30_encoding.md (R62, R63, R67, R68, R73). Decoding works on the body: the CRC is checked and
removed before it (41_frame_dispatch.md R90, R93). -/

namespace Sys2Proof

/-- `hi8(w) = w[15:8]` (R11). -/
def hi8 (w : Word) : Byte := w.extractLsb' 8 8

/-- `lo8(w) = w[7:0]` (R11). -/
def lo8 (w : Word) : Byte := w.extractLsb' 0 8

/-- `toWord(h, l)`: h is the high byte, l the low byte (R11). -/
def toWord (h l : Byte) : Word := (h.setWidth 16 <<< 8) ||| l.setWidth 16

/-! ## Function codes (R68) -/

abbrev fcRdCoils : Byte := 0x01
abbrev fcRdDiscrete : Byte := 0x02
abbrev fcRdHolding : Byte := 0x03
abbrev fcRdInput : Byte := 0x04
abbrev fcWrCoil : Byte := 0x05
abbrev fcWrReg : Byte := 0x06
abbrev fcWrCoils : Byte := 0x0F
abbrev fcWrRegs : Byte := 0x10

/-- The REQ_FIXED rows of the function-code map (R62, R68): code and instruction made from id, addr and qty or value. -/
def fixedRows : List (Byte × (Byte → Word → Word → Instr)) :=
  [(fcRdCoils, .rdCoils), (fcRdDiscrete, .rdDiscrete), (fcRdHolding, .rdHolding), (fcRdInput, .rdInput),
   (fcWrCoil, .wrCoil), (fcWrReg, .wrReg)]

/-- The REQ_MULTI rows of the function-code map (R63, R68). -/
def multiRows : List (Byte × (Byte → Word → Word → Byte → List Byte → Instr)) :=
  [(fcWrCoils, .wrCoils), (fcWrRegs, .wrRegs)]

/-- What a body decodes to. -/
inductive Decoded where
  /-- an instruction -/
  | instr (i : Instr)
  /-- one of the eight codes under a body length its format does not have: the length rule R96 applies -/
  | badLength (id fc : Byte)
  /-- a body without an id or a function code: the frame checks R93 and R94 drop it before decoding -/
  | tooShort
deriving DecidableEq, Repr

/-- The rest of a REQ_FIXED body is exactly `addr_hi addr_lo arg_hi arg_lo` (R62, R67, R96). -/
def decodeFixed (id fc : Byte) (mk : Byte → Word → Word → Instr) : List Byte → Decoded
  | [ah, al, xh, xl] => .instr (mk id (toWord ah al) (toWord xh xl))
  | _ => .badLength id fc

/-- The rest of a REQ_MULTI body is `addr_hi addr_lo qty_hi qty_lo bc` and any number of data bytes (R63, R67, R96). -/
def decodeMulti (id fc : Byte) (mk : Byte → Word → Word → Byte → List Byte → Instr) : List Byte → Decoded
  | ah :: al :: qh :: ql :: bc :: data => .instr (mk id (toWord ah al) (toWord qh ql) bc data)
  | _ => .badLength id fc

/-- Decoding a body: one table lookup on `P[1]` (R68), then the length rule of the code's format (R96); a code in
neither table is illegal whatever the length (R69, R97). -/
def decode : List Byte → Decoded
  | id :: fc :: rest =>
    match fixedRows.lookup fc with
    | some mk => decodeFixed id fc mk rest
    | none =>
      match multiRows.lookup fc with
      | some mk => decodeMulti id fc mk rest
      | none => .instr (.illegalFunction id fc)
  | _ => .tooShort

/-! ## The encoder (R62, R63, R73) -/

/-- The unit id `P[0]` of a request (R61). -/
def Instr.id : Instr → Byte
  | .rdCoils id _ _ => id
  | .rdDiscrete id _ _ => id
  | .rdHolding id _ _ => id
  | .rdInput id _ _ => id
  | .wrCoil id _ _ => id
  | .wrReg id _ _ => id
  | .wrCoils id _ _ _ _ => id
  | .wrRegs id _ _ _ _ => id
  | .illegalFunction id _ => id

/-- The function code `P[1]` of a request (R61, R68). -/
def Instr.fc : Instr → Byte
  | .rdCoils _ _ _ => fcRdCoils
  | .rdDiscrete _ _ _ => fcRdDiscrete
  | .rdHolding _ _ _ => fcRdHolding
  | .rdInput _ _ _ => fcRdInput
  | .wrCoil _ _ _ => fcWrCoil
  | .wrReg _ _ _ => fcWrReg
  | .wrCoils _ _ _ _ _ => fcWrCoils
  | .wrRegs _ _ _ _ _ => fcWrRegs
  | .illegalFunction _ fc => fc

/-- The first six bytes shared by both formats: id, code, address and argument, high bytes first (R62, R63, R47). -/
def head6 (id fc : Byte) (addr arg : Word) : List Byte :=
  [id, fc, hi8 addr, lo8 addr, hi8 arg, lo8 arg]

/-- The body of a request (R73). -/
def encode : Instr → List Byte
  | .rdCoils id addr qty => head6 id fcRdCoils addr qty
  | .rdDiscrete id addr qty => head6 id fcRdDiscrete addr qty
  | .rdHolding id addr qty => head6 id fcRdHolding addr qty
  | .rdInput id addr qty => head6 id fcRdInput addr qty
  | .wrCoil id addr value => head6 id fcWrCoil addr value
  | .wrReg id addr value => head6 id fcWrReg addr value
  | .wrCoils id addr qty bc data => head6 id fcWrCoils addr qty ++ bc :: data
  | .wrRegs id addr qty bc data => head6 id fcWrRegs addr qty ++ bc :: data
  | .illegalFunction id fc => [id, fc]

/-! ## Words numbered as spec/opcode_table.json numbers them

The table numbers the bits of a row from the function code: bits 7..0 are `P[1]` (its "match_on"). The id byte `P[0]`
stands before it and has no bits in the table; it is laid out as 0, like every bit the table gives no number
(log entry 9). -/

/-- The `n` low bytes of `w`, the least significant first. -/
def wordBytes : Nat → Nat → List Byte
  | 0, _ => []
  | n + 1, w => BitVec.ofNat 8 w :: wordBytes n (w / 256)

/-- How many bytes the body that begins with `p` has by its format (R62, R63); a catch-all body needs id and code. -/
def formatLength (p : List Byte) : Nat :=
  if (fixedRows.lookup (p.getD 1 0)).isSome then 6
  else if (multiRows.lookup (p.getD 1 0)).isSome then 7 + (p.getD 6 0).toNat
  else 2

/-- The longest body that fits in a frame together with its two CRC bytes (R91). -/
abbrev maxBody : Nat := Config.maxFrame - 2

/-- The body whose bytes from `P[1]` on are those of `w` (its `nbits` bits, in whole bytes), the id 0 before them and
zeros after them up to the length the format asks for, at most what a frame with a CRC can carry. -/
def tableBody (nbits w : Nat) : List Byte :=
  let p := 0 :: wordBytes (max 1 ((nbits + 7) / 8)) w
  (p ++ List.replicate (formatLength p - p.length) 0).take maxBody

/-- The instruction the decoder reads from a word numbered as the opcode table numbers it. -/
def decodeTableWord (nbits w : Nat) : Option Instr :=
  match decode (tableBody nbits w) with
  | .instr i => some i
  | .badLength _ _ => none
  | .tooShort => none

end Sys2Proof
end

