-- ==== Sys2Proof/Machine/State.lean ====
section
/-! DEFINITION. The machine's state (10_state.md R20 to R37), the inputs of a step, and the reasons a step stops. -/

namespace Sys2Proof.Machine

/-! ## The register file -/

/-- One bank: `size` elements at indices `0 .. size-1` (R20, R40). `cells` lists the elements that differ from 0, by
strictly rising index; an element not listed reads as 0, which is what registration leaves (R51, R182). -/
structure Bank (α : Type) where
  size : Nat
  cells : List (Nat × α)
deriving DecidableEq, Repr

/-- The four disjoint banks (R21 to R24, R40). A bank never registered has size 0 (R25). -/
structure Memory where
  /-- CO, coils: read and written by the protocol (R21). -/
  co : Bank Bool
  /-- DI, discrete inputs: read-only for the protocol (R22). -/
  di : Bank Bool
  /-- HR, holding registers: read and written by the protocol (R23). -/
  hr : Bank Word
  /-- IR, input registers: read-only for the protocol (R24). -/
  ir : Bank Word
deriving DecidableEq, Repr

/-- The two banks of bits (R21, R22). -/
inductive BitBank where
  | co
  | di
deriving DecidableEq, Repr

/-- The two banks of words (R23, R24). -/
inductive WordBank where
  | hr
  | ir
deriving DecidableEq, Repr

/-! ## Outcomes, exception codes and inputs -/

/-- The three exception codes (60_exceptions.md R152). -/
inductive ExcCode where
  | illegalFunction
  | illegalDataAddress
  | illegalDataValue
deriving DecidableEq, Repr

/-- The classification of a transaction (41_frame_dispatch.md R105). -/
inductive TxnOutcome where
  | idle
  | dropShort
  | dropCrc
  | dropId
  | exception
  | normal
  | bcastException
  | bcastNormal
deriving DecidableEq, Repr

/-- What a HostRead returns: a bit of CO or DI, a word of HR or IR (60_exceptions.md R160). -/
inductive HostValue where
  | bit (b : Bool)
  | word (w : Word)
deriving DecidableEq, Repr

/-- The host commands, the engine's "system instructions" (60_exceptions.md R160). HostRead, HostWrite and
RegisterBank come once for the banks of bits and once for the banks of words. -/
inductive HostCmd where
  | bindId (id : Nat)
  | setCrc (en : Bool)
  | registerBits (b : BitBank) (n : Nat)
  | registerWords (b : WordBank) (n : Nat)
  | readBit (b : BitBank) (i : Nat)
  | readWord (b : WordBank) (i : Nat)
  | writeBit (b : BitBank) (i : Nat) (v : Bool)
  | writeWord (b : WordBank) (i : Nat) (v : Word)
  | bindTransport
deriving DecidableEq, Repr

/-- What happens in one step. Transactions and host commands come one at a time, in one total order (20_memory.md R51;
60_exceptions.md R161); no move overlaps another. Bytes arriving are no move: they are the input of a poll (R36). -/
inductive Move where
  /-- One invocation of the Event Loop (R7, R90) with its per-step input: `rx` are the bytes the transport yields for it,
  those that arrived before it (R91, R158, R163), `late` the bytes that arrive while it runs (R92, R187; log entry 4). -/
  | poll (rx late : List Byte)
  /-- A host command (R160). -/
  | host (c : HostCmd)
deriving DecidableEq, Repr

/-! ## State -/

/-- Everything the spec gives the machine, the outputs of the last step, and the model's own two fields. -/
structure State where
  /-- The register file (R20 to R25). -/
  mem : Memory
  /-- DEVICE_ID, `none` while unbound (R20, R28, R181; log entry 1). -/
  deviceId : Option Byte
  /-- CRC_EN (R29). -/
  crcEn : Bool
  /-- The frame buffer F (R33). -/
  frame : List Byte
  /-- The body P: F without its CRC (R33). -/
  body : List Byte
  /-- The CRC accumulator (R34). -/
  crcAcc : Word
  /-- The reply buffer: the reply before its CRC bytes (R35). -/
  reply : List Byte
  /-- The transport's input WITHIN a step: what of the step's own input has not been read into the frame (R36, R92). Every
  step begins and ends with it empty, so no input buffer is kept across steps (R36; log entry 4). -/
  rx : List Byte
  /-- OUTPUT of the last step: the bytes emitted (R90, R164). -/
  tx : List Byte
  /-- OUTPUT of the last step: its classification (R105); `none` when it was no transaction. -/
  outcome : Option TxnOutcome
  /-- OUTPUT of the last step: what a HostRead returned (R160). -/
  hostValue : Option HostValue
  /-- The MODEL's own: what happens next, oldest first (R51; log entry 3). -/
  moves : List Move
  /-- The MODEL's own: the counter that free values are applied to (log entry 7). -/
  freeCount : Nat
  /-- The mark of a refused run (R20, R160, R181; log entry 2). -/
  refused : Bool
deriving DecidableEq, Repr

/-- The engine has no fault: "malformed input never crashes the engine" (R105, R106, R152). No constructor, so no step
ends in one; nothing is lost by it (safe: log entry 18). -/
inductive Fault where
deriving DecidableEq, Repr

/-- Why a step has no meaning. -/
inductive Refusal where
  /-- Raised by an arm of `exec` that has no meaning yet (safe: such a run stops); no arm does in this model. -/
  | notModelled (mnemonic : String)
  /-- Raised by `step` in a state that carries the mark `refused`: such a state "is never final" and no claim about its
  run can be proved (70_reset_and_hazards.md R181). Safe: the run stops where the spec gives no behaviour
  (log entry 2). -/
  | markedRefused
deriving DecidableEq, Repr

/-- A bank that was never registered (R25): size 0 and no elements. -/
def absent {α : Type} : Bank α := { size := 0, cells := [] }

/-- The machine right after reset (R37, R180). -/
def State.reset : State where
  mem := { co := absent, di := absent, hr := absent, ir := absent }
  deviceId := none
  crcEn := true
  frame := []
  body := []
  crcAcc := 0
  reply := []
  rx := []
  tx := []
  outcome := none
  hostValue := none
  moves := []
  freeCount := 0
  refused := false

end Sys2Proof.Machine
end

