-- ==== Sys2Proof/Machine/Flags.lean ====
section
/-! DEFINITION. The engine has no status flag, condition code or sticky error bit (10_state.md R32): what stands in
their place is the classification of a transaction, an output of the step (41_frame_dispatch.md R105). -/

namespace Sys2Proof.Machine

/-- The classification of a transaction that reached dispatch: by whether an exception was raised and whether the id
is the broadcast id (R105). -/
def classify (raised : Bool) (id : Byte) : TxnOutcome :=
  if id = Config.broadcastId then
    if raised then .bcastException else .bcastNormal
  else
    if raised then .exception else .normal

end Sys2Proof.Machine
end

