-- ==== Sys2Proof/Machine/Crc.lean ====
section
/-! DEFINITION. The CRC-16 engine (40_crc.md R80 to R84). -/

namespace Sys2Proof.Machine

/-- One iteration: "if LSB set, shift right and XOR 0xA001, else shift right" (R80, R81). -/
def crcShift (c : Word) : Word :=
  if c.getLsbD 0 then (c >>> 1) ^^^ Config.crcPoly else c >>> 1

/-- `n` iterations. -/
def crcShifts : Nat → Word → Word
  | 0, c => c
  | n + 1, c => crcShifts n (crcShift c)

/-- One byte: XOR into the low byte, then 8 iterations (R81). -/
def crcByte (c : Word) (b : Byte) : Word := crcShifts 8 (c ^^^ b.setWidth 16)

/-- `CRC16(bs)` (R80, R81). -/
def crc16 (bs : List Byte) : Word := bs.foldl crcByte Config.crcInit

/-- A body as it stands on the wire: with CRC checking on, the two CRC bytes follow it, low byte first (R60, R82, R84). -/
def withCrc (crcEn : Bool) (p : List Byte) : List Byte :=
  if crcEn then p ++ [lo8 (crc16 p), hi8 (crc16 p)] else p

end Sys2Proof.Machine
end

