-- ==== Sys2Proof/Machine/Operands.lean ====
section
/-! DEFINITION. Operand forms: the packed bits and big-endian words of request payloads and read replies
(42_read.md R121, R122; 44_write_multiple.md R141, R143). -/

namespace Sys2Proof.Machine

/-- `ceil8(n) = (n + 7) div 8` (00_scope.md R12). -/
def ceil8 (n : Nat) : Nat := (n + 7) / 8

/-- The byte whose bit k is `f k` for `k < n`, the other bits 0. -/
def packByte (f : Nat → Bool) : Nat → Byte
  | 0 => 0
  | k + 1 => packByte f k ||| (if f k then 1#8 <<< k else 0)

/-- PackBits (R121): bit k of byte i is element `8*i+k` of the range, low bit first, stopping at `qty` bits; the unused
bits of the last byte are 0. `f j` is element `addr + j` of the bank. -/
def packBits (f : Nat → Bool) (qty : Nat) : List Byte :=
  (List.range (ceil8 qty)).map fun i => packByte (fun k => decide (8 * i + k < qty) && f (8 * i + k)) 8

/-- PackWords (R122): each word high byte first. -/
def packWords (f : Nat → Word) (qty : Nat) : List Byte :=
  (List.range qty).flatMap fun j => [hi8 (f j), lo8 (f j)]

/-- Bit j of a WR_COILS payload: bit `j mod 8` of data byte `j div 8` (R141). -/
def dataBit (data : List Byte) (j : Nat) : Bool := (data.getD (j / 8) 0).getLsbD (j % 8)

/-- Word j of a WR_REGS payload: the big-endian pair at stride 2 (R143). -/
def dataWord (data : List Byte) (j : Nat) : Word := toWord (data.getD (2 * j) 0) (data.getD (2 * j + 1) 0)

end Sys2Proof.Machine
end

