-- ==== Sys2Proof/Machine/Ops.lean ====
section
/-! DEFINITION. The shared operations over the register file, the bounds checks, the reply encoder, and taking an
exception (00_scope.md R13, 41_frame_dispatch.md R98 to R102). -/

namespace Sys2Proof.Machine

/-! ## Banks (R13) -/

/-- Element `i` of a list of cells; an index not listed reads as 0. -/
def cellsGet {α : Type} [Inhabited α] (i : Nat) : List (Nat × α) → α
  | [] => default
  | (j, w) :: cs => if i = j then w else cellsGet i cs

/-- The cells with element `i` set to `v`, kept in canonical form: rising indices, no element that is 0. -/
def cellsPut {α : Type} [DecidableEq α] [Inhabited α] (i : Nat) (v : α) : List (Nat × α) → List (Nat × α)
  | [] => if v = default then [] else [(i, v)]
  | (j, w) :: cs =>
    if i < j then
      if v = default then (j, w) :: cs else (i, v) :: (j, w) :: cs
    else if i = j then
      if v = default then cs else (i, v) :: cs
    else (j, w) :: cellsPut i v cs

/-- `BankRead(b, i)` (R13). The caller has checked `i < b.size`. -/
def Bank.read {α : Type} [Inhabited α] (b : Bank α) (i : Nat) : α := cellsGet i b.cells

/-- `BankWrite(b, i, v)` (R13): "the bank itself only stores"; the caller has checked `i < b.size`. -/
def Bank.write {α : Type} [DecidableEq α] [Inhabited α] (b : Bank α) (i : Nat) (v : α) : Bank α :=
  { b with cells := cellsPut i v b.cells }

/-- Elements `addr .. addr+n-1` set to `f 0 .. f (n-1)`; the order of the writes is unobservable (R45). -/
def Bank.writeRange {α : Type} [DecidableEq α] [Inhabited α] (b : Bank α) (addr : Nat) (f : Nat → α) : Nat → Bank α
  | 0 => b
  | n + 1 => (b.writeRange addr f n).write (addr + n) (f n)

/-- Registration replaces the whole bank: the given size, every element 0 (20_memory.md R56, R182). -/
def Bank.fresh {α : Type} (n : Nat) : Bank α := { size := n, cells := [] }

/-- The canonical form of a bank: at most 65536 elements (R26), cells at strictly rising indices, each inside the bank,
none equal to what an unlisted element reads as. -/
abbrev Bank.wf {α : Type} [DecidableEq α] [Inhabited α] (b : Bank α) : Prop :=
  b.size ≤ Config.maxBankSize ∧ b.cells.Pairwise (fun x y => x.1 < y.1) ∧
    ∀ c ∈ b.cells, c.1 < b.size ∧ c.2 ≠ default

/-- The canonical form of the whole register file. -/
abbrev Memory.wf (m : Memory) : Prop := m.co.wf ∧ m.di.wf ∧ m.hr.wf ∧ m.ir.wf

/-- A bank of bits by its name. -/
def Memory.bits (m : Memory) : BitBank → Bank Bool
  | .co => m.co
  | .di => m.di

/-- A bank of words by its name. -/
def Memory.words (m : Memory) : WordBank → Bank Word
  | .hr => m.hr
  | .ir => m.ir

/-- One bank of bits replaced; the banks are disjoint (R40). -/
def Memory.setBits (m : Memory) (b : BitBank) (v : Bank Bool) : Memory :=
  match b with
  | .co => { m with co := v }
  | .di => { m with di := v }

/-- One bank of words replaced. -/
def Memory.setWords (m : Memory) (b : WordBank) (v : Bank Word) : Memory :=
  match b with
  | .hr => { m with hr := v }
  | .ir => { m with ir := v }

/-! ## Bounds checks (R98, R120, R140), in unbounded integers (R12) -/

/-- CheckAddr (R98). -/
def checkAddr (size addr : Nat) : Option ExcCode :=
  if addr ≥ size then some .illegalDataAddress else none

/-- CheckRange (R98). -/
def checkRange (size addr qty : Nat) : Option ExcCode :=
  if qty < 1 ∨ addr + qty - 1 ≥ size then some .illegalDataValue else none

/-- The capacity check of a read with `bc` data bytes (R124): two CRC bytes count whatever CRC_EN is. -/
def checkCapacity (bc : Nat) : Option ExcCode :=
  if 5 + bc > Config.maxReply then some .illegalDataValue else none

/-- The checks of a read, in order (R120). -/
def checkRead (size addr qty bc : Nat) : Option ExcCode :=
  (checkAddr size addr).or ((checkRange size addr qty).or (checkCapacity bc))

/-- The value check of WR_COIL (R130). -/
def checkCoilValue (value : Word) : Option ExcCode :=
  if value ≠ Config.coilOn ∧ value ≠ Config.coilOff then some .illegalDataValue else none

/-- A byte count that must be met: declared against computed, or payload length against declared (R140). -/
def checkCount (got want : Nat) : Option ExcCode :=
  if got ≠ want then some .illegalDataValue else none

/-- The checks of a multiple write, in order (R140): `want` is the computed byte count, `len` the payload length. -/
def checkMulti (size addr qty bc want len : Nat) : Option ExcCode :=
  (checkAddr size addr).or ((checkRange size addr qty).or ((checkCount bc want).or (checkCount len bc)))

/-! ## Replies (R99 to R102) -/

/-- The code byte of an exception reply (R152). -/
def ExcCode.toByte : ExcCode → Byte
  | .illegalFunction => Config.excIllegalFunction
  | .illegalDataAddress => Config.excIllegalDataAddress
  | .illegalDataValue => Config.excIllegalDataValue

/-- Emission (R101, R102): the bytes handed to the transport for the reply `r` to a frame with this id. -/
def emitted (crcEn : Bool) (id : Byte) (r : List Byte) : List Byte :=
  if id = Config.broadcastId then [] else withCrc crcEn r

/-- The reply encoder: the reply buffer takes `r`, the CRC accumulator its CRC when one is sent (R84, R101), and the
step's outputs are the emitted bytes and the classification. -/
def sendReply (raised : Bool) (id : Byte) (r : List Byte) (s : State) : State :=
  { s with
    reply := r
    crcAcc := if s.crcEn = true ∧ id ≠ Config.broadcastId then crc16 r else s.crcAcc
    tx := emitted s.crcEn id r
    outcome := some (classify raised id) }

/-- TAKING AN EXCEPTION: the reply is `[id, fc | 0x80, code]` and the state is the one before the handler ran
(R66, R100, 60_exceptions.md R156). Nothing is saved, no mode changes, no bank is written, and there is no return from
an exception: the transaction ends as usual (R156, R157). -/
def takeException (id fc : Byte) (code : ExcCode) (s : State) : State :=
  sendReply true id [id, fc ||| Config.excMarker, code.toByte] s

/-- The normal reply of a write: its address and quantity or value, echoed (R65, R132). -/
def echo (id fc : Byte) (addr arg : Word) : List Byte :=
  [id, fc, hi8 addr, lo8 addr, hi8 arg, lo8 arg]

/-- The normal reply of a read: `[id, fc, bc] ++ d` (R64, R123). -/
def readReply (id fc : Byte) (bc : Nat) (d : List Byte) : List Byte :=
  [id, fc, BitVec.ofNat 8 bc] ++ d

/-- The register file replaced, by a handler that passed its checks. -/
def putMem (m : Memory) (s : State) : State := { s with mem := m }

/-- The end of a handler: an exception if a check failed, else the handler's effect (R100). -/
def guarded (id fc : Byte) (check : Option ExcCode) (effect : State) (s : State) : State :=
  match check with
  | some code => takeException id fc code s
  | none => effect

/-- A run the spec refuses: only the mark is set (R160, R181). -/
def markRefused (s : State) : State := { s with refused := true }

end Sys2Proof.Machine
end

