-- ==== Sys2Proof/Machine/Illegal.lean ====
section
/-! DEFINITION. The catch-all ILLEGAL_FUNCTION (30_encoding.md R69, 41_frame_dispatch.md R97). -/

namespace Sys2Proof.Machine

/-- Any code outside the map takes the exception ILLEGAL_FUNCTION; a code with bit 7 set keeps its value in the reply,
since the marker is ORed in (R70, R97). -/
def execIllegalFunction (id fc : Byte) (s : State) : Host.Outcome State Fault Refusal :=
  .next (takeException id fc .illegalFunction s)

end Sys2Proof.Machine
end

