-- ==== Sys2Proof/Machine/MultiWrites.lean ====
section
/-! DEFINITION. The multiple-write functions 0x0F and 0x10 (44_write_multiple.md R140 to R144). Every check comes before
the first write, so a failure writes nothing. -/

namespace Sys2Proof.Machine

/-- WR_COILS (R142): bit j of the payload goes to coil `addr + j` (R141). -/
def execWrCoils (id : Byte) (addr qty : Word) (bc : Byte) (data : List Byte) (s : State) :
    Host.Outcome State Fault Refusal :=
  .next (guarded id fcWrCoils
    (checkMulti s.mem.co.size addr.toNat qty.toNat bc.toNat (ceil8 qty.toNat) data.length)
    (sendReply false id (echo id fcWrCoils addr qty)
      (putMem { s.mem with co := s.mem.co.writeRange addr.toNat (dataBit data) qty.toNat } s)) s)

/-- WR_REGS (R143): big-endian word pair j of the payload goes to register `addr + j`. -/
def execWrRegs (id : Byte) (addr qty : Word) (bc : Byte) (data : List Byte) (s : State) :
    Host.Outcome State Fault Refusal :=
  .next (guarded id fcWrRegs
    (checkMulti s.mem.hr.size addr.toNat qty.toNat bc.toNat (2 * qty.toNat) data.length)
    (sendReply false id (echo id fcWrRegs addr qty)
      (putMem { s.mem with hr := s.mem.hr.writeRange addr.toNat (dataWord data) qty.toNat } s)) s)

end Sys2Proof.Machine
end

