-- ==== Sys2Proof/Machine/Reads.lean ====
section
/-! DEFINITION. The read functions 0x01 to 0x04 (42_read.md R120 to R128). A read changes no bank (R46). -/

namespace Sys2Proof.Machine

/-- A read of bits: the checks of R120, then the packed reply of R121 and R123. -/
def readBits (b : Bank Bool) (id fc : Byte) (addr qty : Word) (s : State) : State :=
  guarded id fc (checkRead b.size addr.toNat qty.toNat (ceil8 qty.toNat))
    (sendReply false id
      (readReply id fc (ceil8 qty.toNat) (packBits (fun j => b.read (addr.toNat + j)) qty.toNat)) s) s

/-- A read of words: the checks of R120, then the reply of R122 and R123. -/
def readWords (b : Bank Word) (id fc : Byte) (addr qty : Word) (s : State) : State :=
  guarded id fc (checkRead b.size addr.toNat qty.toNat (2 * qty.toNat))
    (sendReply false id
      (readReply id fc (2 * qty.toNat) (packWords (fun j => b.read (addr.toNat + j)) qty.toNat)) s) s

/-- RD_COILS (R125). -/
def execRdCoils (id : Byte) (addr qty : Word) (s : State) : Host.Outcome State Fault Refusal :=
  .next (readBits s.mem.co id fcRdCoils addr qty s)

/-- RD_DISCRETE (R126). -/
def execRdDiscrete (id : Byte) (addr qty : Word) (s : State) : Host.Outcome State Fault Refusal :=
  .next (readBits s.mem.di id fcRdDiscrete addr qty s)

/-- RD_HOLDING (R127). -/
def execRdHolding (id : Byte) (addr qty : Word) (s : State) : Host.Outcome State Fault Refusal :=
  .next (readWords s.mem.hr id fcRdHolding addr qty s)

/-- RD_INPUT (R128). -/
def execRdInput (id : Byte) (addr qty : Word) (s : State) : Host.Outcome State Fault Refusal :=
  .next (readWords s.mem.ir id fcRdInput addr qty s)

end Sys2Proof.Machine
end

