-- ==== Sys2Proof/Machine/SingleWrites.lean ====
section
/-! DEFINITION. The single-write functions 0x05 and 0x06 (43_write_single.md R130 to R132). -/

namespace Sys2Proof.Machine

/-- WR_COIL (R130): 0xFF00 writes 1 and 0x0000 writes 0 (log entry 12); the address check comes first. -/
def execWrCoil (id : Byte) (addr value : Word) (s : State) : Host.Outcome State Fault Refusal :=
  .next (guarded id fcWrCoil ((checkAddr s.mem.co.size addr.toNat).or (checkCoilValue value))
    (sendReply false id (echo id fcWrCoil addr value)
      (putMem { s.mem with co := s.mem.co.write addr.toNat (decide (value = Config.coilOn)) } s)) s)

/-- WR_REG (R131): every 16-bit value is accepted. -/
def execWrReg (id : Byte) (addr value : Word) (s : State) : Host.Outcome State Fault Refusal :=
  .next (guarded id fcWrReg (checkAddr s.mem.hr.size addr.toNat)
    (sendReply false id (echo id fcWrReg addr value)
      (putMem { s.mem with hr := s.mem.hr.write addr.toNat value } s)) s)

end Sys2Proof.Machine
end

