-- ==== Sys2Proof/Machine/Dispatch.lean ====
section
/-! DEFINITION. The dispatcher: one arm per instruction (41_frame_dispatch.md R97). -/

namespace Sys2Proof.Machine

def exec (i : Instr) (s : State) : Host.Outcome State Fault Refusal :=
  match i with
  | .rdCoils id addr qty => Sys2Proof.Machine.execRdCoils id addr qty s
  | .rdDiscrete id addr qty => Sys2Proof.Machine.execRdDiscrete id addr qty s
  | .rdHolding id addr qty => Sys2Proof.Machine.execRdHolding id addr qty s
  | .rdInput id addr qty => Sys2Proof.Machine.execRdInput id addr qty s
  | .wrCoil id addr value => Sys2Proof.Machine.execWrCoil id addr value s
  | .wrReg id addr value => Sys2Proof.Machine.execWrReg id addr value s
  | .wrCoils id addr qty bc data => Sys2Proof.Machine.execWrCoils id addr qty bc data s
  | .wrRegs id addr qty bc data => Sys2Proof.Machine.execWrRegs id addr qty bc data s
  | .illegalFunction id fc => Sys2Proof.Machine.execIllegalFunction id fc s

end Sys2Proof.Machine
end

