-- ==== Sys2Proof/Machine/HostCommands.lean ====
section
/-! DEFINITION. The host commands (60_exceptions.md R160, R162). Each runs between transactions (R161). A refused
command leaves the state unchanged and marks it refused. -/

namespace Sys2Proof.Machine

/-- BindId (R28, R160): refused for 0 and for more than 8 bits; 1..255 are accepted. -/
def hostBindId (id : Nat) (s : State) : State :=
  if id = 0 ∨ id > 255 then markRefused s else { s with deviceId := some (BitVec.ofNat 8 id) }

/-- SetCrc (R29, R160): never refused. -/
def hostSetCrc (en : Bool) (s : State) : State := { s with crcEn := en }

/-- RegisterBank on CO or DI (R56, R160, R182). -/
def hostRegisterBits (b : BitBank) (n : Nat) (s : State) : State :=
  if n > Config.maxBankSize then markRefused s else putMem (s.mem.setBits b (Bank.fresh n)) s

/-- RegisterBank on HR or IR (R56, R160, R182). -/
def hostRegisterWords (b : WordBank) (n : Nat) (s : State) : State :=
  if n > Config.maxBankSize then markRefused s else putMem (s.mem.setWords b (Bank.fresh n)) s

/-- HostRead of a bit (R160). -/
def hostReadBit (b : BitBank) (i : Nat) (s : State) : State :=
  if i ≥ (s.mem.bits b).size then markRefused s else { s with hostValue := some (.bit ((s.mem.bits b).read i)) }

/-- HostRead of a word (R160). -/
def hostReadWord (b : WordBank) (i : Nat) (s : State) : State :=
  if i ≥ (s.mem.words b).size then markRefused s else { s with hostValue := some (.word ((s.mem.words b).read i)) }

/-- HostWrite of a bit (R160), to DI as well. -/
def hostWriteBit (b : BitBank) (i : Nat) (v : Bool) (s : State) : State :=
  if i ≥ (s.mem.bits b).size then markRefused s else putMem (s.mem.setBits b ((s.mem.bits b).write i v)) s

/-- HostWrite of a word (R160), to IR as well. -/
def hostWriteWord (b : WordBank) (i : Nat) (v : Word) (s : State) : State :=
  if i ≥ (s.mem.words b).size then markRefused s else putMem (s.mem.setWords b ((s.mem.words b).write i v)) s

/-- BindTransport (R160): it connects the byte stream and touches no engine state (log entry 22). -/
def hostBindTransport (s : State) : State := s

/-- One host command. -/
def hostCommand (c : HostCmd) (s : State) : State :=
  match c with
  | .bindId id => hostBindId id s
  | .setCrc en => hostSetCrc en s
  | .registerBits b n => hostRegisterBits b n s
  | .registerWords b n => hostRegisterWords b n s
  | .readBit b i => hostReadBit b i s
  | .readWord b i => hostReadWord b i s
  | .writeBit b i v => hostWriteBit b i v s
  | .writeWord b i v => hostWriteWord b i v s
  | .bindTransport => hostBindTransport s

end Sys2Proof.Machine
end

