-- ==== Sys2Proof/Machine/Engine.lean ====
section
/-! DEFINITION. The transaction (41_frame_dispatch.md R90 to R97, R105), the moves of one step, and the placing of a
request where the next step fetches it. `step` (Machine/Step.lean) only calls what stands here. -/

namespace Sys2Proof.Machine

/-- Frame capture (R91): the first `min(len(rx), 256)` bytes of what the transport yields. The bytes beyond them and those
that arrive meanwhile are left in the transport's input (R92). -/
def captureFrame (rx late : List Byte) (s : State) : State :=
  { s with frame := rx.take Config.maxFrame, rx := rx.drop Config.maxFrame ++ late }

/-- The structural checks on a captured frame (R93, R94): the body, or the reason of a silent drop. -/
def checkFrame (crcEn : Bool) (f : List Byte) : Except TxnOutcome (List Byte) :=
  if crcEn then
    if f.length < 4 then .error .dropShort
    else
      if crc16 (f.take (f.length - 2)) ≠ toWord (f.getD (f.length - 1) 0) (f.getD (f.length - 2) 0) then .error .dropCrc
      else .ok (f.take (f.length - 2))
  else
    if f.length < 2 then .error .dropShort else .ok f

/-- The id filter (R95). -/
def acceptsId (dev id : Byte) : Bool := id = Config.broadcastId || id = dev

/-- A silent drop (R14, R151): nothing is emitted and no state changes. -/
def dropFrame (o : TxnOutcome) (s : State) : State := { s with tx := [], outcome := some o }

/-- The body that passed the checks, and the CRC computed over it when checking is on (R33, R34, R84). -/
def loadBody (p : List Byte) (s : State) : State :=
  { s with body := p, crcAcc := if s.crcEn then crc16 p else s.crcAcc }

/-- The exception code of the length rule (R96; 92_eei_decisions.md D8, log entry 11). -/
def lengthExc : ExcCode := .illegalDataValue

/-- Dispatch (R96, R97): the instruction a body decodes to runs; a body of a wrong length takes its exception and no
handler runs. A body shorter than two bytes does not get this far (R93, R94). -/
def dispatchBody (p : List Byte) (s : State) : Host.Outcome State Fault Refusal :=
  match decode p with
  | .instr i => exec i s
  | .badLength id fc => .next (takeException id fc lengthExc s)
  | .tooShort => .next (dropFrame .dropShort s)

/-- From the captured frame to the reply, in the normative order of R90. -/
def processFrame (dev : Byte) (s : State) : Host.Outcome State Fault Refusal :=
  match checkFrame s.crcEn s.frame with
  | .error o => .next (dropFrame o s)
  | .ok p =>
    if acceptsId dev (p.getD 0 0) then dispatchBody p (loadBody p s)
    else .next (dropFrame .dropId (loadBody p s))

/-- The end of a step that captured a frame: the transport's input is discarded (R92, R165), and the transient datapath
registers are undefined again (R33 to R35): free values, within the buffers' capacities (log entry 6). -/
def endTransaction (s : State) : State :=
  { s with
    rx := []
    frame := (Config.freeBytes s.freeCount).take Config.maxFrame
    body := (Config.freeBytes (s.freeCount + 1)).take Config.maxFrame
    reply := (Config.freeBytes (s.freeCount + 2)).take Config.maxReply
    crcAcc := Config.freeWord s.freeCount
    freeCount := s.freeCount + 3 }

/-- `endTransaction` after an answer that goes on. -/
def finish : Host.Outcome State Fault Refusal → Host.Outcome State Fault Refusal
  | .next s => .next (endTransaction s)
  | .fault f => .fault f
  | .refused r => .refused r

/-- A step with no byte available (R91): the state as it is. It reads nothing and flushes nothing; bytes that arrive
meanwhile stay outside the engine, to be the input of a later poll (R36; log entry 4). -/
def idle (s : State) : State := { s with outcome := some .idle }

/-- Transaction(S, rx) (R90). Unbound: refused, by the mark (R181). Bytes in `late` arrive while the step runs: the flush
discards them with the rest (R92, R187). -/
def transaction (rx late : List Byte) (s : State) : Host.Outcome State Fault Refusal :=
  match s.deviceId with
  | none => .next (markRefused s)
  | some dev =>
    match rx with
    | [] => .next (idle s)
    | b :: bs => finish (processFrame dev (captureFrame (b :: bs) late s))

/-- The outputs of the step before are gone when a step begins: a result is an output, not state (R32). -/
def clearOutputs (s : State) : State := { s with tx := [], outcome := none, hostValue := none }

/-- No input is left over from the step before (R36). -/
def clearInput (s : State) : State := { s with rx := [] }

/-- One move. -/
def performMove (m : Move) (s : State) : Host.Outcome State Fault Refusal :=
  match m with
  | .poll rx late => transaction rx late s
  | .host c => .next (hostCommand c s)

/-- The move this step performs: the oldest one of `moves`. With none listed the Event Loop is polled with no byte
available (log entry 3). -/
def nextMove (s : State) : Move :=
  match s.moves with
  | [] => .poll [] []
  | m :: _ => m

/-- The state a step's move works on: the move is taken off the list, and outputs and input are cleared. -/
def beginStep (s : State) : State := clearInput (clearOutputs { s with moves := s.moves.tail })

/-- One step. A state marked refused has no next one (R181). -/
def stepOnce (s : State) : Host.Outcome State Fault Refusal :=
  match s.refused with
  | true => .refused .markedRefused
  | false => performMove (nextMove s) (beginStep s)

/-- The frame that carries a word numbered as the opcode table numbers it. -/
def tableFrame (crcEn : Bool) (nbits w : Nat) : List Byte := withCrc crcEn (tableBody nbits w)

/-- A request placed where the next step fetches it: the Event Loop is polled next, with exactly its frame as the step's
input. A device id is bound if none is (R181, R183) and a mark of refusal is taken off (log entry 9). -/
def placeWord (s : State) (nbits w : Nat) : State :=
  { s with
    deviceId := some (s.deviceId.getD 0x01)
    moves := .poll (tableFrame s.crcEn nbits w) [] :: s.moves
    refused := false }

end Sys2Proof.Machine
end

