-- ==== Sys2Proof/Machine/Step.lean ====
section
/-! DEFINITION. One step of the machine, and a request placed where the next step fetches it. -/

namespace Sys2Proof.Machine

/-- One step: the oldest move of the total order of R51 (a transaction or a host command). -/
def step (s : State) : Host.Outcome State Fault Refusal := stepOnce s

/-- `s` with the request of a table word stored where `step` fetches its next one (log entry 9). -/
def State.withFetchWord (s : State) (nbits w : Nat) : State := placeWord s nbits w

end Sys2Proof.Machine
end

