-- ==== Sys2Proof/Safety.lean ====
section
/-! DEFINITION. The terms the statements use: the invariant of a legal state, what a request leaves alone, what a reply
is, and the rules of the request families written from spec/ without the model's own handlers. -/

namespace Sys2Proof.Machine

/-! ## A legal state -/

/-- What every step keeps: the register file is in canonical form with every size at most 65536 (R26), the device id is
never the broadcast id (R28), the datapath buffers stay within their capacities (R33, R35), and no input is kept from one
step to the next (R36). -/
structure Inv (s : State) : Prop where
  mem : s.mem.wf
  deviceId : s.deviceId ≠ some Config.broadcastId
  frame : s.frame.length ≤ Config.maxFrame
  body : s.body.length ≤ Config.maxFrame
  reply : s.reply.length ≤ Config.maxReply
  rx : s.rx = []

/-- The persistent state of 10_state.md R20: the four banks, DEVICE_ID, CRC_EN and the mark of refusal. -/
def SamePersistent (s t : State) : Prop :=
  t.mem = s.mem ∧ t.deviceId = s.deviceId ∧ t.crcEn = s.crcEn ∧ t.refused = s.refused

/-- Two banks of one size with the same elements, told by reading each (R40). -/
def SameElements {α : Type} [Inhabited α] (b c : Bank α) : Prop :=
  c.size = b.size ∧ ∀ i, c.read i = b.read i

/-- What no request writes while it runs: configuration, frame, body, the rest of the step's input and the model's own fields. -/
def Untouched (s t : State) : Prop :=
  t.deviceId = s.deviceId ∧ t.crcEn = s.crcEn ∧ t.frame = s.frame ∧ t.body = s.body ∧ t.rx = s.rx ∧
    t.hostValue = s.hostValue ∧ t.moves = s.moves ∧ t.freeCount = s.freeCount ∧ t.refused = s.refused

/-! ## Replies -/

/-- The outcome row of R105 for a request that reached dispatch. -/
def outcomeRow (raised : Bool) (id : Byte) : TxnOutcome :=
  match raised, decide (id = 0x00) with
  | false, false => .normal
  | false, true => .bcastNormal
  | true, false => .exception
  | true, true => .bcastException

/-- From `s` to `t` the reply `r` was built and handed to the transport: nothing for the broadcast id (R102), else the
reply followed, when CRC_EN is 1, by its CRC low byte first (R101). The accumulator holds the CRC of a reply that is sent
with one and is left alone when CRC_EN is 0; for an unsent reply the spec leaves it open (R84). -/
def Answers (s t : State) (raised : Bool) (id : Byte) (r : List Byte) : Prop :=
  t.reply = r ∧ t.outcome = some (outcomeRow raised id) ∧
    (t.tx = if id = 0x00 then []
      else if s.crcEn = true then r ++ [lo8 (crc16 r), hi8 (crc16 r)] else r) ∧
    (s.crcEn = false → t.crcAcc = s.crcAcc) ∧ (s.crcEn = true → id ≠ 0x00 → t.crcAcc = crc16 r)

/-- The request was answered by the exception `code` and nothing else happened (R100, R156). -/
def Raises (s t : State) (id fc code : Byte) : Prop :=
  Answers s t true id [id, fc ||| 0x80, code] ∧ t.mem = s.mem ∧ Untouched s t

/-! ## The rules of the request families -/

/-- What a read of a bank of bits answers (R121, R123), its operands big-endian from the body (R62, R67): bit k of data
byte i is element `addr + 8*i + k`, the unused bits are 0, the byte count is the number of data bytes, and nothing but
the reply changes. -/
def BitReadRule (mk : Byte → Word → Word → Instr) (fc : Byte) (bank : Memory → Bank Bool) : Prop :=
  (∀ id ah al qh ql, decode [id, fc, ah, al, qh, ql] = .instr (mk id (toWord ah al) (toWord qh ql))) ∧
  ∀ (s : State) (id : Byte) (addr qty : Word),
    1 ≤ qty.toNat → addr.toNat + qty.toNat ≤ (bank s.mem).size → qty.toNat ≤ 2008 →
      ∃ t d, exec (mk id addr qty) s = .next t ∧
        d.length = (qty.toNat + 7) / 8 ∧ d.length ≤ 251 ∧
        (∀ i k, i < d.length → k < 8 → (d.getD i 0).getLsbD k =
          (decide (8 * i + k < qty.toNat) && (bank s.mem).read (addr.toNat + (8 * i + k)))) ∧
        Answers s t false id (id :: fc :: BitVec.ofNat 8 d.length :: d) ∧
        t.mem = s.mem ∧ Untouched s t

/-- What a read of a bank of words answers (R122, R123): each word high byte first. -/
def WordReadRule (mk : Byte → Word → Word → Instr) (fc : Byte) (bank : Memory → Bank Word) : Prop :=
  (∀ id ah al qh ql, decode [id, fc, ah, al, qh, ql] = .instr (mk id (toWord ah al) (toWord qh ql))) ∧
  ∀ (s : State) (id : Byte) (addr qty : Word),
    1 ≤ qty.toNat → addr.toNat + qty.toNat ≤ (bank s.mem).size → qty.toNat ≤ 125 →
      ∃ t d, exec (mk id addr qty) s = .next t ∧
        d.length = 2 * qty.toNat ∧ d.length ≤ 251 ∧
        (∀ j, j < qty.toNat → d.getD (2 * j) 0 = hi8 ((bank s.mem).read (addr.toNat + j)) ∧
          d.getD (2 * j + 1) 0 = lo8 ((bank s.mem).read (addr.toNat + j))) ∧
        Answers s t false id (id :: fc :: BitVec.ofNat 8 d.length :: d) ∧
        t.mem = s.mem ∧ Untouched s t

/-- Where a request that names a range of a bank of `size` elements traps: on its address first, then on its quantity,
its end, or `bad`, any further check that reports ILLEGAL_DATA_VALUE (R120, R140; the order is D10's, log entry 14). -/
def RangeTraps (i : Instr) (size addr qty : Nat) (bad : Prop) (s : State) : Prop :=
  (addr ≥ size → ∃ t, exec i s = .next t ∧ Raises s t i.id i.fc Config.excIllegalDataAddress) ∧
  (addr < size → qty = 0 ∨ addr + qty - 1 ≥ size ∨ bad →
    ∃ t, exec i s = .next t ∧ Raises s t i.id i.fc Config.excIllegalDataValue)

/-- The echo reply of a write (R65, R132). -/
def echoOf (id fc : Byte) (addr arg : Word) : List Byte := [id, fc, hi8 addr, lo8 addr, hi8 arg, lo8 arg]

/-- CO after a write to `addr .. addr+n-1` of the bits `f 0 .. f (n-1)`, the rest of the register file as before. -/
def WroteCoils (m m' : Memory) (addr n : Nat) (f : Nat → Bool) : Prop :=
  m'.co.size = m.co.size ∧
    (∀ i, m'.co.read i = if addr ≤ i ∧ i < addr + n then f (i - addr) else m.co.read i) ∧
    m'.di = m.di ∧ m'.hr = m.hr ∧ m'.ir = m.ir

/-- HR after a write to `addr .. addr+n-1` of the words `f 0 .. f (n-1)`, the rest of the register file as before. -/
def WroteRegs (m m' : Memory) (addr n : Nat) (f : Nat → Word) : Prop :=
  m'.hr.size = m.hr.size ∧
    (∀ i, m'.hr.read i = if addr ≤ i ∧ i < addr + n then f (i - addr) else m.hr.read i) ∧
    m'.co = m.co ∧ m'.di = m.di ∧ m'.ir = m.ir

/-! ## Transactions -/

/-- The next step of `s` is one invocation of the Event Loop in a state not marked refused, with a device id bound and
at least one byte in the step's input `rx`; `late` arrives while it runs. -/
def Transacts (s : State) (dev : Byte) (rx late : List Byte) : Prop :=
  s.refused = false ∧ nextMove s = .poll rx late ∧ s.deviceId = some dev ∧ rx ≠ []

/-- The frame of a transaction with the input `rx` (R91). -/
def frameOf (rx : List Byte) : List Byte := rx.take 256

/-- The frame of the input `rx` passes the checks of R93 or R94 and leaves the body `p`. -/
def DeliversBody (s : State) (rx p : List Byte) : Prop :=
  2 ≤ p.length ∧
    if s.crcEn = true then frameOf rx = p ++ [lo8 (crc16 p), hi8 (crc16 p)] else frameOf rx = p

/-- The state a body is dispatched in: the move taken, the outputs cleared, frame, body and (with CRC checking on)
accumulator loaded, and the rest of the input not yet discarded (R92). -/
def dispatchState (s : State) (rx late p : List Byte) : State :=
  { s with
    moves := s.moves.tail, tx := [], outcome := none, hostValue := none
    frame := frameOf rx, body := p, crcAcc := if s.crcEn = true then crc16 p else s.crcAcc
    rx := rx.drop 256 ++ late }

/-- The same request under another unit id. -/
def withId (id : Byte) : Instr → Instr
  | .rdCoils _ a q => .rdCoils id a q
  | .rdDiscrete _ a q => .rdDiscrete id a q
  | .rdHolding _ a q => .rdHolding id a q
  | .rdInput _ a q => .rdInput id a q
  | .wrCoil _ a v => .wrCoil id a v
  | .wrReg _ a v => .wrReg id a v
  | .wrCoils _ a q bc d => .wrCoils id a q bc d
  | .wrRegs _ a q bc d => .wrRegs id a q bc d
  | .illegalFunction _ fc => .illegalFunction id fc

/-- A read request (R125 to R128). -/
def IsRead (i : Instr) : Prop :=
  ∃ id a q, i = .rdCoils id a q ∨ i = .rdDiscrete id a q ∨ i = .rdHolding id a q ∨ i = .rdInput id a q

/-- The two register files agree on the bank that the code of a request reads or writes (R27). -/
def SameBankFor (i : Instr) (m m' : Memory) : Prop :=
  match i with
  | .rdCoils _ _ _ => m'.co = m.co
  | .rdDiscrete _ _ _ => m'.di = m.di
  | .rdHolding _ _ _ => m'.hr = m.hr
  | .rdInput _ _ _ => m'.ir = m.ir
  | .wrCoil _ _ _ => m'.co = m.co
  | .wrReg _ _ _ => m'.hr = m.hr
  | .wrCoils _ _ _ _ _ => m'.co = m.co
  | .wrRegs _ _ _ _ _ => m'.hr = m.hr
  | .illegalFunction _ _ => True

/-- A request that writes coils (0x05, 0x0F; R27). -/
def WritesCoils (i : Instr) : Prop := i.fc = 0x05 ∨ i.fc = 0x0F

/-- A request that writes holding registers (0x06, 0x10; R27). -/
def WritesRegs (i : Instr) : Prop := i.fc = 0x06 ∨ i.fc = 0x10

end Sys2Proof.Machine
end

