-- ==== Sys2Proof/Certificates/Slice0/Obligations.lean ====
section
/-! DEFINITION. The statements for the provers. Each docstring names the rule of spec/ it formalises. Statements about a
next state conclude that there is one. -/

open Sys2Proof Sys2Proof.Machine

/-! ## CRC-16 engine (40_crc.md) -/

/-- R80: the initial value, and per byte an XOR into the low byte and 8 iterations of "if LSB set, shift right and XOR
0xA001, else shift right". -/
def Obligations.CrcFoldsEachByteEightShifts : Prop :=
  crc16 [] = 0xFFFF ∧
  ∀ (bs : List Byte) (b : Byte), crc16 (bs ++ [b]) =
    (fun c : Word => if c.getLsbD 0 = true then (c >>> 1) ^^^ 0xA001 else c >>> 1)^[8] (crc16 bs ^^^ b.setWidth 16)

/-- R83: a body followed by its CRC, low byte first, has CRC 0. -/
def Obligations.CrcOfBodyWithItsCrcIsZero : Prop :=
  ∀ p : List Byte, crc16 (p ++ [lo8 (crc16 p), hi8 (crc16 p)]) = 0

/-- R82: the CRC follows the body on the wire as `lo8` then `hi8`; and with CRC checking on, a body `p` followed by bytes
x, y passes the check iff `CRC16(p) = toWord(y, x)`, so only on exactly those bytes. -/
def Obligations.CrcCheckPassesExactlyOnLowByteFirst : Prop :=
  (∀ p : List Byte, withCrc true p = p ++ [lo8 (crc16 p), hi8 (crc16 p)]) ∧
  ∀ (p : List Byte) (x y : Byte), 2 ≤ p.length →
    (checkFrame true (p ++ [x, y]) = .ok p ↔ crc16 p = toWord y x) ∧
    (crc16 p ≠ toWord y x → checkFrame true (p ++ [x, y]) = .error .dropCrc) ∧
    (crc16 p = toWord y x ↔ x = lo8 (crc16 p) ∧ y = hi8 (crc16 p))

/-! ## Encoding (30_encoding.md) -/

/-- R62, R63, R67, R73: every well-formed request decodes from its own encoding, with every operand. -/
def Obligations.DecodeOfEncodeIsTheInstruction : Prop :=
  ∀ i : Instr, i.wf = true → decode (encode i) = .instr i

/-- R62, R63, R67, R68: a body that decodes to one of the eight functions IS that request's encoding: every byte of it is
accounted for. -/
def Obligations.BodyOfALegalFunctionIsItsEncoding : Prop :=
  ∀ (p : List Byte) (i : Instr), decode p = .instr i → i.fc ∈ legalCodes → encode i = p

/-- R62, R63, R68, R69: a few bodies written out from the formats decode to the requests they stand for (the bytes of
95_test_vectors.md R.4, W1.1, M.1, M.11 and V.14 without their CRC). -/
def Obligations.WrittenOutBodiesDecode : Prop :=
  decode [0x01, 0x03, 0x00, 0x00, 0x00, 0x02] = .instr (.rdHolding 0x01 0 2) ∧
  decode [0x01, 0x05, 0x00, 0x02, 0xFF, 0x00] = .instr (.wrCoil 0x01 2 0xFF00) ∧
  decode [0x01, 0x0F, 0x00, 0x00, 0x00, 0x0A, 0x02, 0xCD, 0x01] = .instr (.wrCoils 0x01 0 10 2 [0xCD, 0x01]) ∧
  decode [0x01, 0x10, 0x00, 0x00, 0x00, 0x02, 0x04, 0x00, 0x0A, 0x00, 0x0B] =
    .instr (.wrRegs 0x01 0 2 4 [0x00, 0x0A, 0x00, 0x0B]) ∧
  decode [0x01, 0x08, 0x00, 0x00, 0x12, 0x34] = .instr (.illegalFunction 0x01 0x08)

/-- R69, R97: every code outside the eight decodes to the catch-all whatever follows it, and that answers the exception
ILLEGAL_FUNCTION (nothing when the id is broadcast) and changes nothing. The function byte of the reply is the code OR
0x80 (R66, R70) for 0x80 to 0xFF too: OR against plus is the spec's own decision D15 (log entry 16). That the catch-all
keeps nothing of the rest of the body is the model's choice (log entry 23), the code's number the Modbus standard's (log
entry 10). -/
def Obligations.EveryOtherCodeRaisesIllegalFunction : Prop :=
  ∀ (id fc : Byte) (rest : List Byte), fc ∉ legalCodes →
    decode (id :: fc :: rest) = .instr (.illegalFunction id fc) ∧
    ∀ s : State, ∃ t, exec (.illegalFunction id fc) s = .next t ∧ Raises s t id fc Config.excIllegalFunction

/-- R96: a body whose length its code's format does not have is answered by ILLEGAL_DATA_VALUE and changes nothing (the set
of codes and the exception code are the spec's decisions D7 and D8, log entry 11). The body is `id :: fc :: rest`, so `len(P) ≠ 6` is `rest.length ≠ 4` and `len(P) < 7` is `rest.length < 5`. -/
def Obligations.WrongBodyLengthRaisesIllegalDataValue : Prop :=
  ∀ (id fc : Byte) (rest : List Byte) (s : State),
    fc ∈ [0x01#8, 0x02, 0x03, 0x04, 0x05, 0x06] ∧ (id :: fc :: rest).length ≠ 6 ∨
      fc ∈ [0x0F#8, 0x10] ∧ (id :: fc :: rest).length < 7 →
    ∃ t, dispatchBody (id :: fc :: rest) s = .next t ∧ Raises s t id fc Config.excIllegalDataValue

/-! ## Reads (42_read.md) -/

/-- R121: RD_COILS and RD_DISCRETE answer the packed bits of their range, low bit first, with the unused bits of the last
byte 0, for every quantity whose reply fits, at every address of the bank. -/
def Obligations.BitReadsAnswerPackedBits : Prop :=
  BitReadRule .rdCoils 0x01 Memory.co ∧ BitReadRule .rdDiscrete 0x02 Memory.di

/-- R122: RD_HOLDING and RD_INPUT answer the words of their range, each high byte first. -/
def Obligations.WordReadsAnswerBigEndianWords : Prop :=
  WordReadRule .rdHolding 0x03 Memory.hr ∧ WordReadRule .rdInput 0x04 Memory.ir

/-- Where the four reads trap: the address check first, then the quantity, the end of the range and the capacity of the
reply (the order is the spec's decision D10, the capacity its decision D12; log entries 13 and 14). -/
def Obligations.ReadsTrapOnAddressRangeAndCapacity : Prop :=
  ∀ (s : State) (id : Byte) (addr qty : Word),
    RangeTraps (.rdCoils id addr qty) s.mem.co.size addr.toNat qty.toNat (qty.toNat > 2008) s ∧
    RangeTraps (.rdDiscrete id addr qty) s.mem.di.size addr.toNat qty.toNat (qty.toNat > 2008) s ∧
    RangeTraps (.rdHolding id addr qty) s.mem.hr.size addr.toNat qty.toNat (qty.toNat > 125) s ∧
    RangeTraps (.rdInput id addr qty) s.mem.ir.size addr.toNat qty.toNat (qty.toNat > 125) s

/-- R46, reads: a read leaves every bank and every configuration register alone, and asked again answers the same. -/
def Obligations.ReadsChangeNothingAndAnswerAgain : Prop :=
  ∀ (i : Instr) (s : State), IsRead i → ∃ t u, exec i s = .next t ∧ exec i t = .next u ∧
    SameElements s.mem.co t.mem.co ∧ SameElements s.mem.di t.mem.di ∧
    SameElements s.mem.hr t.mem.hr ∧ SameElements s.mem.ir t.mem.ir ∧
    Untouched s t ∧ u.reply = t.reply ∧ u.tx = t.tx ∧ u.outcome = t.outcome

/-! ## Writes (43_write_single.md, 44_write_multiple.md) -/

/-- WR_COIL (43_write_single.md) writes `CO[addr]` only: 1 for 0xFF00, 0 for 0x0000; any other value is
ILLEGAL_DATA_VALUE, and an address outside the bank, checked first, is ILLEGAL_DATA_ADDRESS. Which value means ON is the
spec's decision D25 from general knowledge (log entry 12) and the order its decision D11 (log entry 14). -/
def Obligations.WrCoilWritesOneCoil : Prop :=
  (∀ id ah al vh vl, decode [id, 0x05, ah, al, vh, vl] = .instr (.wrCoil id (toWord ah al) (toWord vh vl))) ∧
  ∀ (s : State) (id : Byte) (addr value : Word),
    (addr.toNat ≥ s.mem.co.size →
      ∃ t, exec (.wrCoil id addr value) s = .next t ∧ Raises s t id 0x05 Config.excIllegalDataAddress) ∧
    (addr.toNat < s.mem.co.size → value ≠ 0xFF00 ∧ value ≠ 0x0000 →
      ∃ t, exec (.wrCoil id addr value) s = .next t ∧ Raises s t id 0x05 Config.excIllegalDataValue) ∧
    (s.mem.wf → addr.toNat < s.mem.co.size → value = 0xFF00 ∨ value = 0x0000 →
      ∃ t, exec (.wrCoil id addr value) s = .next t ∧
        Answers s t false id (echoOf id 0x05 addr value) ∧
        WroteCoils s.mem t.mem addr.toNat 1 (fun _ => decide (value = 0xFF00)) ∧ Untouched s t)

/-- R131: WR_REG writes `HR[addr]` only, with every 16-bit value, and echoes the request; an address outside the bank is
ILLEGAL_DATA_ADDRESS and writes nothing. -/
def Obligations.WrRegWritesOneRegister : Prop :=
  (∀ id ah al vh vl, decode [id, 0x06, ah, al, vh, vl] = .instr (.wrReg id (toWord ah al) (toWord vh vl))) ∧
  ∀ (s : State) (id : Byte) (addr value : Word),
    (addr.toNat ≥ s.mem.hr.size →
      ∃ t, exec (.wrReg id addr value) s = .next t ∧ Raises s t id 0x06 Config.excIllegalDataAddress) ∧
    (s.mem.wf → addr.toNat < s.mem.hr.size →
      ∃ t, exec (.wrReg id addr value) s = .next t ∧
        Answers s t false id (echoOf id 0x06 addr value) ∧
        WroteRegs s.mem t.mem addr.toNat 1 (fun _ => value) ∧ Untouched s t)

/-- R141 (for WR_COILS, R142): a request that passes its checks writes coil `addr + j` with bit `j mod 8` of data byte
`j div 8`, for j below the quantity only, so the bits of the last byte beyond it are ignored; no other coil changes, and
the reply echoes address and quantity. -/
def Obligations.WrCoilsWritesTheRange : Prop :=
  (∀ id ah al qh ql bc data, decode (id :: 0x0F :: ah :: al :: qh :: ql :: bc :: data) =
      .instr (.wrCoils id (toWord ah al) (toWord qh ql) bc data)) ∧
  ∀ (s : State) (id : Byte) (addr qty : Word) (bc : Byte) (data : List Byte),
    s.mem.wf → 1 ≤ qty.toNat → addr.toNat + qty.toNat ≤ s.mem.co.size → bc.toNat = (qty.toNat + 7) / 8 →
      data.length = bc.toNat →
      ∃ t, exec (.wrCoils id addr qty bc data) s = .next t ∧
        Answers s t false id (echoOf id 0x0F addr qty) ∧
        WroteCoils s.mem t.mem addr.toNat qty.toNat (fun j => (data.getD (j / 8) 0).getLsbD (j % 8)) ∧
        Untouched s t

/-- WR_REGS (44_write_multiple.md): a request that passes its checks writes register `addr + j` with the big-endian pair
`data[2j], data[2j+1]`, no other register changes, and the reply echoes address and quantity. -/
def Obligations.WrRegsWritesTheRange : Prop :=
  (∀ id ah al qh ql bc data, decode (id :: 0x10 :: ah :: al :: qh :: ql :: bc :: data) =
      .instr (.wrRegs id (toWord ah al) (toWord qh ql) bc data)) ∧
  ∀ (s : State) (id : Byte) (addr qty : Word) (bc : Byte) (data : List Byte),
    s.mem.wf → 1 ≤ qty.toNat → addr.toNat + qty.toNat ≤ s.mem.hr.size → bc.toNat = 2 * qty.toNat →
      data.length = bc.toNat →
      ∃ t, exec (.wrRegs id addr qty bc data) s = .next t ∧
        Answers s t false id (echoOf id 0x10 addr qty) ∧
        WroteRegs s.mem t.mem addr.toNat qty.toNat
          (fun j => toWord (data.getD (2 * j) 0) (data.getD (2 * j + 1) 0)) ∧
        Untouched s t

/-- Where the two multiple writes trap: the address check first, then the quantity, the end of the range, the declared
byte count and the payload length (the order is the spec's decision D10, log entry 14). A trap writes nothing. -/
def Obligations.MultipleWritesTrapAndWriteNothing : Prop :=
  ∀ (s : State) (id : Byte) (addr qty : Word) (bc : Byte) (data : List Byte),
    RangeTraps (.wrCoils id addr qty bc data) s.mem.co.size addr.toNat qty.toNat
      (bc.toNat ≠ (qty.toNat + 7) / 8 ∨ data.length ≠ bc.toNat) s ∧
    RangeTraps (.wrRegs id addr qty bc data) s.mem.hr.size addr.toNat qty.toNat
      (bc.toNat ≠ 2 * qty.toNat ∨ data.length ≠ bc.toNat) s

/-- R132: with CRC checking on, the reply a master gets to a successful WR_COIL or WR_REG is its request frame, byte for
byte. -/
def Obligations.SingleWriteReplyIsTheRequestFrame : Prop :=
  ∀ (s : State) (id : Byte) (addr value : Word), id ≠ 0x00 → s.crcEn = true →
    (addr.toNat < s.mem.co.size → value = 0xFF00 ∨ value = 0x0000 →
      ∃ t, exec (.wrCoil id addr value) s = .next t ∧ t.reply = encode (.wrCoil id addr value) ∧
        t.tx = withCrc true (encode (.wrCoil id addr value))) ∧
    (addr.toNat < s.mem.hr.size →
      ∃ t, exec (.wrReg id addr value) s = .next t ∧ t.reply = encode (.wrReg id addr value) ∧
        t.tx = withCrc true (encode (.wrReg id addr value)))

/-- R133: what WR_REG wrote, RD_HOLDING reads back; what WR_COIL wrote, RD_COILS reads back in bit 0 (the bit is 1 for
0xFF00 and 0 for 0x0000, and the rest of the byte is 0). -/
def Obligations.SingleWriteThenReadReturnsTheValue : Prop :=
  ∀ (s : State) (id id' : Byte) (addr value : Word), s.mem.wf →
    (addr.toNat < s.mem.hr.size →
      ∃ t u, exec (.wrReg id addr value) s = .next t ∧ exec (.rdHolding id' addr 1) t = .next u ∧
        u.reply = [id', 0x03, 0x02, hi8 value, lo8 value]) ∧
    (addr.toNat < s.mem.co.size →
      (∃ t u, exec (.wrCoil id addr 0xFF00) s = .next t ∧ exec (.rdCoils id' addr 1) t = .next u ∧
        u.reply = [id', 0x01, 0x01, 0x01]) ∧
      (∃ t u, exec (.wrCoil id addr 0x0000) s = .next t ∧ exec (.rdCoils id' addr 1) t = .next u ∧
        u.reply = [id', 0x01, 0x01, 0x00]))

/-- R142, R143, R125, R127: a successful WR_REGS read back by RD_HOLDING returns its data bytes, and the bits a successful
WR_COILS wrote are the bits RD_COILS of the same range returns. -/
def Obligations.MultipleWriteThenReadReturnsTheData : Prop :=
  ∀ (s : State) (id id' : Byte) (addr qty : Word) (bc : Byte) (data : List Byte), s.mem.wf → 1 ≤ qty.toNat →
    data.length = bc.toNat →
    (addr.toNat + qty.toNat ≤ s.mem.hr.size → bc.toNat = 2 * qty.toNat → qty.toNat ≤ 125 →
      ∃ t u, exec (.wrRegs id addr qty bc data) s = .next t ∧ exec (.rdHolding id' addr qty) t = .next u ∧
        u.reply = id' :: 0x03 :: bc :: data) ∧
    (addr.toNat + qty.toNat ≤ s.mem.co.size → bc.toNat = (qty.toNat + 7) / 8 → qty.toNat ≤ 2008 →
      ∃ t u d, exec (.wrCoils id addr qty bc data) s = .next t ∧ exec (.rdCoils id' addr qty) t = .next u ∧
        u.reply = id' :: 0x01 :: bc :: d ∧ d.length = data.length ∧
        ∀ j, j < qty.toNat → (d.getD (j / 8) 0).getLsbD (j % 8) = (data.getD (j / 8) 0).getLsbD (j % 8))

/-- R46, writes: the same request applied twice leaves the register file as applied once. -/
def Obligations.RepeatedRequestLeavesSameBanks : Prop :=
  ∀ (i : Instr) (s : State), s.mem.wf → ∃ t u, exec i s = .next t ∧ exec i t = .next u ∧ u.mem = t.mem

/-! ## Whole-machine rules on requests (10_state.md R27, 41_frame_dispatch.md R100 to R103, 60_exceptions.md) -/

/-- R27, the write half: CO changes only under 0x05 and 0x0F, HR only under 0x06 and 0x10, DI and IR under no code, and no
bank changes its size. -/
def Obligations.OnlyWriteCodesChangeTheirBank : Prop :=
  ∀ (i : Instr) (s : State), ∃ t, exec i s = .next t ∧
    (¬ WritesCoils i → t.mem.co = s.mem.co) ∧ (¬ WritesRegs i → t.mem.hr = s.mem.hr) ∧
    t.mem.di = s.mem.di ∧ t.mem.ir = s.mem.ir ∧
    t.mem.co.size = s.mem.co.size ∧ t.mem.hr.size = s.mem.hr.size ∧ Untouched s t

/-- R27, the read half: what a request answers depends on no bank but the one its code reads or writes. Two states that
agree on that bank and on CRC_EN answer the same bytes. -/
def Obligations.AnswersDependOnOneBank : Prop :=
  ∀ (i : Instr) (s s' : State), SameBankFor i s.mem s'.mem → s'.crcEn = s.crcEn →
    ∃ t t', exec i s = .next t ∧ exec i s' = .next t' ∧
      t'.reply = t.reply ∧ t'.tx = t.tx ∧ t'.outcome = t.outcome

/-- R103: a broadcast request is executed exactly as the unicast one is, and only its output is suppressed. -/
def Obligations.BroadcastExecutesAsUnicast : Prop :=
  ∀ (i : Instr) (s : State) (id : Byte), id ≠ 0x00 →
    ∃ t u, exec (withId 0x00 i) s = .next t ∧ exec (withId id i) s = .next u ∧
      t.mem = u.mem ∧ Untouched s t ∧ t.reply.tail = u.reply.tail ∧ t.tx = [] ∧ u.tx ≠ [] ∧
      (t.outcome = some .bcastNormal ↔ u.outcome = some .normal) ∧
      (t.outcome = some .bcastException ↔ u.outcome = some .exception)

/-- R152, R153: an exception reply is the id, the code with bit 7 set, and one of the three codes; ILLEGAL_FUNCTION comes
from the catch-all alone, and the catch-all raises nothing else. The numbers are the Modbus standard's (log entry 10), OR
against plus is the spec's decision D15 (log entry 16). -/
def Obligations.ExceptionRepliesCarryTheirCode : Prop :=
  ∀ (i : Instr) (s : State), ∃ t, exec i s = .next t ∧
    (t.outcome = some .exception ∨ t.outcome = some .bcastException →
      ∃ c : Byte, t.reply = [i.id, i.fc ||| 0x80, c] ∧ (c = 0x01 ∨ c = 0x02 ∨ c = 0x03) ∧
        (c = 0x01 ↔ ∃ id fc, i = .illegalFunction id fc)) ∧
    (t.outcome = some .normal ∨ t.outcome = some .bcastNormal → t.reply.take 2 = [i.id, i.fc])

/-! ## Transactions (41_frame_dispatch.md) -/

/-- R90, R93, R94, R97: when the frame of the step's input passes its checks, its id is the broadcast id or this
engine's, and its body decodes to an instruction, the step runs exactly that instruction in the state that has the
frame, the body and the accumulator loaded, and then ends the transaction. -/
def Obligations.StepRunsTheDecodedInstruction : Prop :=
  ∀ (s : State) (dev : Byte) (rx late p : List Byte) (i : Instr), Transacts s dev rx late → DeliversBody s rx p →
    decode p = .instr i → i.id = 0x00 ∨ i.id = dev →
    step s = finish (exec i (dispatchState s rx late p)) ∧
    ∀ t, exec i (dispatchState s rx late p) = .next t → step s = .next (endTransaction t) ∧
      SamePersistent t (endTransaction t) ∧ (endTransaction t).rx = [] ∧ (endTransaction t).tx = t.tx ∧
      (endTransaction t).outcome = t.outcome ∧ (endTransaction t).moves = s.moves.tail

/-- R96 in a step: a body of a wrong length that was let through is dispatched, raises its exception and leaves the
persistent state alone (the exception code is the spec's decision D8, log entry 11). -/
def Obligations.StepAnswersAWrongLengthByException : Prop :=
  ∀ (s : State) (dev : Byte) (rx late p : List Byte) (id fc : Byte), Transacts s dev rx late → DeliversBody s rx p →
    decode p = .badLength id fc → id = 0x00 ∨ id = dev →
    ∃ t, step s = .next t ∧ SamePersistent s t ∧ t.outcome = some (outcomeRow true id) ∧
      t.tx = if id = 0x00 then [] else withCrc s.crcEn [id, fc ||| 0x80, 0x03]

/-- R151: the three causes of a silent drop. A drop emits nothing and records nothing; the input is discarded (R92).
The model's own `freeCount`, which no rule reads, counts the transactions that captured a frame (log entry 7). -/
def Obligations.SilentDropsRecordNothing : Prop :=
  ∀ (s : State) (dev : Byte) (rx late : List Byte), Transacts s dev rx late →
    ((frameOf rx).length < (if s.crcEn = true then 4 else 2) →
      ∃ t, step s = .next t ∧ t.outcome = some .dropShort ∧ t.tx = [] ∧ SamePersistent s t ∧ t.rx = []) ∧
    (∀ (p : List Byte) (x y : Byte), s.crcEn = true → 2 ≤ p.length → frameOf rx = p ++ [x, y] →
      crc16 p ≠ toWord y x →
      ∃ t, step s = .next t ∧ t.outcome = some .dropCrc ∧ t.tx = [] ∧ SamePersistent s t ∧ t.rx = []) ∧
    (∀ p : List Byte, DeliversBody s rx p → p.getD 0 0 ≠ 0x00 → p.getD 0 0 ≠ dev →
      ∃ t, step s = .next t ∧ t.outcome = some .dropId ∧ t.tx = [] ∧ SamePersistent s t ∧ t.rx = [])

/-- R94: with CRC checking off a frame shorter than 2 bytes is dropped; otherwise the body is the whole frame and its CRC
is not compared. -/
def Obligations.CrcDisabledTakesTheWholeFrame : Prop :=
  ∀ (s : State) (dev : Byte) (rx late : List Byte), Transacts s dev rx late → s.crcEn = false →
    ((frameOf rx).length < 2 → ∃ t, step s = .next t ∧ t.outcome = some .dropShort ∧ t.tx = [] ∧ SamePersistent s t) ∧
    (2 ≤ (frameOf rx).length → (frameOf rx).getD 0 0 = 0x00 ∨ (frameOf rx).getD 0 0 = dev →
      step s = finish (dispatchBody (frameOf rx) (dispatchState s rx late (frameOf rx))))

/-- R91: with no byte available the step does nothing and emits nothing; bytes that arrive meanwhile are no part of the
state (R36; log entry 4). -/
def Obligations.NoInputIsAnIdleStep : Prop :=
  ∀ (s : State) (dev : Byte) (late : List Byte), s.refused = false → nextMove s = .poll [] late →
    s.deviceId = some dev →
    step s = .next { s with
      moves := s.moves.tail, rx := [], tx := [], outcome := some .idle, hostValue := none }

/-- R92: at the end of every step that captured a frame the transport's input is empty. -/
def Obligations.CapturedFrameEmptiesTheInput : Prop :=
  ∀ (s : State) (dev : Byte) (rx late : List Byte), Transacts s dev rx late →
    ∃ t, step s = .next t ∧ t.rx = [] ∧ t.moves = s.moves.tail

/-- R91, R92, R187: bytes of the input beyond the first 256 and bytes that arrive during the step make no difference. -/
def Obligations.OnlyTheFirst256BytesMatter : Prop :=
  ∀ (s : State) (rx late rx' late' : List Byte) (ms : List Move), s.moves = .poll rx late :: ms →
    rx'.take 256 = rx.take 256 → step { s with moves := .poll rx' late' :: ms } = step s

/-- R102: a frame with id 0 never produces output, whatever its function code, length or CRC. -/
def Obligations.BroadcastFramesGetNoReply : Prop :=
  ∀ (s : State) (late rest : List Byte), s.refused = false → nextMove s = .poll (0x00 :: rest) late →
    ∃ t, step s = .next t ∧ t.tx = []

/-- R156: an exception saves nothing and leaves the state exactly as before the transaction: no bank, no configuration
register and no mode changes; the exception reply (nothing for a broadcast) takes the place of the normal one, and the
transaction ends as usual, with the input discarded. The exception reply is R100's and R152's: the first byte of the
input, its second byte OR 0x80, and one of the three codes, which is ILLEGAL_FUNCTION exactly for a code outside the
eight. OR is the spec's decision D15 (log entry 16), the numbers are the Modbus standard's (log entry 10). -/
def Obligations.ExceptionsChangeNoState : Prop :=
  ∀ (s t : State), step s = .next t → t.outcome = some .exception ∨ t.outcome = some .bcastException →
    SamePersistent s t ∧ t.rx = [] ∧ t.moves = s.moves.tail ∧
    ∃ (rx late : List Byte) (id fc code : Byte), nextMove s = .poll rx late ∧
      rx[0]? = some id ∧ rx[1]? = some fc ∧
      (code = 0x01 ∨ code = 0x02 ∨ code = 0x03) ∧ (code = 0x01 ↔ fc ∉ legalCodes) ∧
      t.outcome = some (outcomeRow true id) ∧
      t.tx = if id = 0x00 then [] else withCrc s.crcEn [id, fc ||| 0x80, code]

/-- R105, R159: a transaction changes persistent state only when its outcome is NORMAL or BCAST_NORMAL, and then only CO
and HR elements; it emits only when its outcome is NORMAL or EXCEPTION. -/
def Obligations.TransactionsChangeOnlyCoilsAndRegisters : Prop :=
  ∀ (s : State) (dev : Byte) (rx late : List Byte), Transacts s dev rx late → ∃ t, step s = .next t ∧
    t.deviceId = s.deviceId ∧ t.crcEn = s.crcEn ∧ t.refused = s.refused ∧
    t.mem.di = s.mem.di ∧ t.mem.ir = s.mem.ir ∧
    t.mem.co.size = s.mem.co.size ∧ t.mem.hr.size = s.mem.hr.size ∧
    (t.mem ≠ s.mem → t.outcome = some .normal ∨ t.outcome = some .bcastNormal) ∧
    (t.tx ≠ [] → t.outcome = some .normal ∨ t.outcome = some .exception)

/-- R104: a transaction emits nothing or one whole reply: this engine's id, a function byte, at least one byte more, and
the CRC when CRC_EN is 1. -/
def Obligations.EmissionIsNothingOrOneWholeReply : Prop :=
  ∀ (s : State) (dev : Byte) (rx late : List Byte), Transacts s dev rx late → ∃ t, step s = .next t ∧
    (t.tx = [] ∨ ∃ (fc : Byte) (r : List Byte), r ≠ [] ∧ t.tx = withCrc s.crcEn (dev :: fc :: r))

/-- R35, R124: no step emits more than MAX_REPLY = 256 bytes. -/
def Obligations.EmissionFitsTheReplyBuffer : Prop :=
  ∀ (s t : State), step s = .next t → t.tx.length ≤ 256

/-- R144: a multiple write whose frame does not fit in 256 bytes writes nothing, whatever its operands. -/
def Obligations.OverlongMultipleWriteWritesNothing : Prop :=
  ∀ (s : State) (dev : Byte) (rx late : List Byte) (id : Byte) (addr qty : Word) (bc : Byte) (data : List Byte)
    (i : Instr),
    Transacts s dev rx late → i = .wrCoils id addr qty bc data ∨ i = .wrRegs id addr qty bc data →
    data.length = bc.toNat → rx = withCrc s.crcEn (encode i) → 256 < rx.length →
    ∃ t, step s = .next t ∧ t.mem = s.mem

/-- R105, R106: the engine is total: a state not marked refused has a next one, whatever bytes the transport yields and
whatever move comes next. -/
def Obligations.EveryUnmarkedStateSteps : Prop :=
  ∀ s : State, s.refused = false → ∃ t, step s = .next t

/-- R181: an Event Loop run while DEVICE_ID is unbound sets the mark and does nothing else (outputs and input are cleared
and the move is taken, as in every step), whatever bytes the transport yields. -/
def Obligations.UnboundTransactionIsRefused : Prop :=
  ∀ (s : State) (rx late : List Byte), s.refused = false → nextMove s = .poll rx late → s.deviceId = none →
    step s = .next { s with
      moves := s.moves.tail, rx := [], tx := [], outcome := none, hostValue := none, refused := true }

/-- The model's reading of "never final" in R181 (log entry 2): a state that carries the mark has no next state. -/
def Obligations.MarkedStatesHaveNoNextState : Prop :=
  ∀ s : State, s.refused = true → step s = .refused .markedRefused

/-- The model's own placing of a request (log entry 9): the next step runs exactly the request the decoder reads from the
word, with its frame as the step's input. -/
def Obligations.PlacedWordIsTheNextRequest : Prop :=
  ∀ (s : State) (nbits w : Nat) (i : Instr), decodeTableWord nbits w = some i →
    step (s.withFetchWord nbits w) =
      finish (exec i (dispatchState (s.withFetchWord nbits w) (tableFrame s.crcEn nbits w) [] (tableBody nbits w)))

/-! ## Host commands (60_exceptions.md R160) -/

/-- R160: BindId, SetCrc and BindTransport when not refused: each changes its register and nothing else. -/
def Obligations.ConfigurationCommandsSetTheirRegister : Prop :=
  ∀ (s : State) (c : HostCmd), s.refused = false → nextMove s = .host c →
    (∀ id : Nat, c = .bindId id → 1 ≤ id → id ≤ 255 → ∃ d : Byte, d.toNat = id ∧ step s = .next { s with
      deviceId := some d, moves := s.moves.tail, rx := [], tx := [], outcome := none, hostValue := none }) ∧
    (∀ en : Bool, c = .setCrc en → step s = .next { s with
      crcEn := en, moves := s.moves.tail, rx := [], tx := [], outcome := none, hostValue := none }) ∧
    (c = .bindTransport → step s = .next { s with
      moves := s.moves.tail, rx := [], tx := [], outcome := none, hostValue := none })

/-- R56: registration replaces one bank by a new one of the given size with every element 0, whatever it held, and leaves
the other three unchanged. -/
def Obligations.RegisterBankReplacesAndZeroFills : Prop :=
  ∀ (s : State) (n : Nat), s.refused = false → n ≤ 65536 →
    (∀ b : BitBank, nextMove s = .host (.registerBits b n) → ∃ t, step s = .next t ∧
      (t.mem.bits b).size = n ∧ (∀ i, (t.mem.bits b).read i = false) ∧
      (∀ b', b' ≠ b → t.mem.bits b' = s.mem.bits b') ∧ (∀ w, t.mem.words w = s.mem.words w) ∧
      t.deviceId = s.deviceId ∧ t.crcEn = s.crcEn ∧ t.refused = false ∧ t.rx = []) ∧
    (∀ b : WordBank, nextMove s = .host (.registerWords b n) → ∃ t, step s = .next t ∧
      (t.mem.words b).size = n ∧ (∀ i, (t.mem.words b).read i = 0) ∧
      (∀ b', b' ≠ b → t.mem.words b' = s.mem.words b') ∧ (∀ w, t.mem.bits w = s.mem.bits w) ∧
      t.deviceId = s.deviceId ∧ t.crcEn = s.crcEn ∧ t.refused = false ∧ t.rx = [])

/-- R160, R162: HostRead returns the element and changes nothing; HostWrite sets that element of that bank, DI and IR
included, and no other. -/
def Obligations.HostAccessReadsAndWritesOneElement : Prop :=
  ∀ (s : State) (i : Nat), s.refused = false → s.mem.wf →
    (∀ b : BitBank, i < (s.mem.bits b).size →
      (nextMove s = .host (.readBit b i) → ∃ t, step s = .next t ∧
        t.hostValue = some (.bit ((s.mem.bits b).read i)) ∧ SamePersistent s t) ∧
      (∀ v, nextMove s = .host (.writeBit b i v) → ∃ t, step s = .next t ∧
        (t.mem.bits b).size = (s.mem.bits b).size ∧
        (∀ k, (t.mem.bits b).read k = if k = i then v else (s.mem.bits b).read k) ∧
        (∀ b', b' ≠ b → t.mem.bits b' = s.mem.bits b') ∧ (∀ w, t.mem.words w = s.mem.words w) ∧
        t.deviceId = s.deviceId ∧ t.crcEn = s.crcEn ∧ t.refused = false)) ∧
    (∀ b : WordBank, i < (s.mem.words b).size →
      (nextMove s = .host (.readWord b i) → ∃ t, step s = .next t ∧
        t.hostValue = some (.word ((s.mem.words b).read i)) ∧ SamePersistent s t) ∧
      (∀ v, nextMove s = .host (.writeWord b i v) → ∃ t, step s = .next t ∧
        (t.mem.words b).size = (s.mem.words b).size ∧
        (∀ k, (t.mem.words b).read k = if k = i then v else (s.mem.words b).read k) ∧
        (∀ b', b' ≠ b → t.mem.words b' = s.mem.words b') ∧ (∀ w, t.mem.bits w = s.mem.bits w) ∧
        t.deviceId = s.deviceId ∧ t.crcEn = s.crcEn ∧ t.refused = false))

/-- R160: the commands of the "refused when" column leave the state unchanged and mark it refused. -/
def Obligations.RefusedCommandsOnlySetTheMark : Prop :=
  ∀ (s : State) (c : HostCmd), s.refused = false → nextMove s = .host c →
    (∃ id, c = .bindId id ∧ (id = 0 ∨ id > 255)) ∨
      (∃ b n, (c = .registerBits b n) ∧ n > 65536) ∨ (∃ b n, c = .registerWords b n ∧ n > 65536) ∨
      (∃ b i, c = .readBit b i ∧ i ≥ (s.mem.bits b).size) ∨ (∃ b i, c = .readWord b i ∧ i ≥ (s.mem.words b).size) ∨
      (∃ b i v, c = .writeBit b i v ∧ i ≥ (s.mem.bits b).size) ∨
      (∃ b i v, c = .writeWord b i v ∧ i ≥ (s.mem.words b).size) →
    step s = .next { s with
      moves := s.moves.tail, rx := [], tx := [], outcome := none, hostValue := none, refused := true }

/-- R162: a transaction sees the host's value and the host sees a transaction's writes. A HostWrite to an element of CO,
DI, HR or IR is what the read of that element answers, and a HostRead of an element that WR_COIL, WR_REG, WR_COILS or
WR_REGS wrote returns what it wrote. Which WR_COIL value means 1 is log entry 12. -/
def Obligations.HostAndWireSeeOneRegisterFile : Prop :=
  ∀ (s : State) (id : Byte) (addr : Word), s.mem.wf →
    (∀ v : Bool,
      (addr.toNat < s.mem.co.size → ∃ u,
        exec (.rdCoils id addr 1) (hostCommand (.writeBit .co addr.toNat v) s) = .next u ∧
        u.reply = [id, 0x01, 0x01, if v then 0x01 else 0x00]) ∧
      (addr.toNat < s.mem.di.size → ∃ u,
        exec (.rdDiscrete id addr 1) (hostCommand (.writeBit .di addr.toNat v) s) = .next u ∧
        u.reply = [id, 0x02, 0x01, if v then 0x01 else 0x00])) ∧
    (∀ v : Word,
      (addr.toNat < s.mem.hr.size → ∃ u,
        exec (.rdHolding id addr 1) (hostCommand (.writeWord .hr addr.toNat v) s) = .next u ∧
        u.reply = [id, 0x03, 0x02, hi8 v, lo8 v]) ∧
      (addr.toNat < s.mem.ir.size → ∃ u,
        exec (.rdInput id addr 1) (hostCommand (.writeWord .ir addr.toNat v) s) = .next u ∧
        u.reply = [id, 0x04, 0x02, hi8 v, lo8 v])) ∧
    (∀ v : Word,
      (addr.toNat < s.mem.co.size → v = 0xFF00 ∨ v = 0x0000 → ∃ t, exec (.wrCoil id addr v) s = .next t ∧
        (hostCommand (.readBit .co addr.toNat) t).hostValue = some (.bit (decide (v = 0xFF00)))) ∧
      (addr.toNat < s.mem.hr.size → ∃ t, exec (.wrReg id addr v) s = .next t ∧
        (hostCommand (.readWord .hr addr.toNat) t).hostValue = some (.word v))) ∧
    ∀ (qty : Word) (bc : Byte) (data : List Byte), 1 ≤ qty.toNat → data.length = bc.toNat →
      (addr.toNat + qty.toNat ≤ s.mem.co.size → bc.toNat = (qty.toNat + 7) / 8 →
        ∃ t, exec (.wrCoils id addr qty bc data) s = .next t ∧ ∀ j, j < qty.toNat →
          (hostCommand (.readBit .co (addr.toNat + j)) t).hostValue =
            some (.bit ((data.getD (j / 8) 0).getLsbD (j % 8)))) ∧
      (addr.toNat + qty.toNat ≤ s.mem.hr.size → bc.toNat = 2 * qty.toNat →
        ∃ t, exec (.wrRegs id addr qty bc data) s = .next t ∧ ∀ j, j < qty.toNat →
          (hostCommand (.readWord .hr (addr.toNat + j)) t).hostValue =
            some (.word (toWord (data.getD (2 * j) 0) (data.getD (2 * j + 1) 0))))

/-- R36: no input buffer is kept across steps. A step's input is its own move's, whatever the state's `rx` holds, and every
step ends with that field empty. -/
def Obligations.NoInputIsKeptAcrossSteps : Prop :=
  (∀ (s : State) (left : List Byte), step { s with rx := left } = step s) ∧
  ∀ s t : State, step s = .next t → t.rx = []

/-! ## Reset and invariant (10_state.md R37, 70_reset_and_hazards.md R180) -/

/-- R37, R180: after reset every bank is absent, DEVICE_ID is unbound and CRC_EN is 1. -/
def Obligations.ResetLeavesBanksAbsentAndIdUnbound : Prop :=
  State.reset.mem.co.size = 0 ∧ State.reset.mem.di.size = 0 ∧ State.reset.mem.hr.size = 0 ∧
  State.reset.mem.ir.size = 0 ∧ State.reset.deviceId = none ∧ State.reset.crcEn = true

/-- The reset state meets the invariant. -/
def Obligations.ResetMeetsTheInvariant : Prop := Inv State.reset

/-- R26, R28, R33, R35: every step of a legal state leaves a legal state: the register file keeps its canonical form and
its size limit, DEVICE_ID is never the broadcast id, the buffers stay within their capacities, and no input is kept (R36). -/
def Obligations.EveryStepKeepsTheInvariant : Prop :=
  ∀ s t : State, Inv s → step s = .next t → Inv t
end

