-- ==== Sys2Proof/Laws/Bank.lean ====
section
/-! SUPPORT. The register file: reading after writing, the canonical form, and that it makes equal contents equal data. -/

namespace Sys2Proof.Machine

variable {α : Type} [DecidableEq α] [Inhabited α]

/-- Cells at strictly rising indices. -/
abbrev Rising (cs : List (Nat × α)) : Prop := cs.Pairwise (fun x y => x.1 < y.1)

/-! ## Cells -/

omit [DecidableEq α] in
theorem cellsGet_eq_default (i : Nat) (cs : List (Nat × α)) (h : ∀ c ∈ cs, c.1 ≠ i) : cellsGet i cs = default := by
  induction cs with
  | nil => rfl
  | cons c cs ih =>
    have h1 : i ≠ c.1 := fun e => h c (by simp) e.symm
    simp only [cellsGet, h1, if_false]
    exact ih fun d hd => h d (by simp [hd])

theorem cellsGet_put (i k : Nat) (v : α) (cs : List (Nat × α)) (hr : Rising cs) :
    cellsGet k (cellsPut i v cs) = if k = i then v else cellsGet k cs := by
  induction cs with
  | nil => by_cases hv : v = default <;> by_cases hk : k = i <;> simp [cellsPut, cellsGet, hv, hk]
  | cons c cs ih =>
    obtain ⟨j, w⟩ := c
    obtain ⟨hj, hcs⟩ := List.pairwise_cons.1 hr
    have hi_cs : i ≤ j → cellsGet i cs = default := fun hij =>
      cellsGet_eq_default i cs fun c hc => by have := hj c hc; simp only at this; omega
    by_cases h1 : i < j
    · have hne : i ≠ j := by omega
      by_cases hv : v = default
      · by_cases hk : k = i
        · subst hk; simp [cellsPut, cellsGet, h1, hv, hne, hi_cs (by omega)]
        · simp [cellsPut, h1, hv, hk]
      · by_cases hk : k = i <;> simp [cellsPut, cellsGet, h1, hv, hk]
    · by_cases h2 : i = j
      · subst h2
        by_cases hv : v = default
        · by_cases hk : k = i
          · subst hk; simp [cellsPut, hv, hi_cs]
          · simp [cellsPut, cellsGet, hv, hk]
        · by_cases hk : k = i <;> simp [cellsPut, cellsGet, hv, hk]
      · simp only [cellsPut, h1, h2, if_false, cellsGet, ih hcs]
        by_cases hk : k = j
        · simp [hk, Ne.symm h2]
        · simp [hk]

theorem mem_cellsPut {i : Nat} {v : α} {cs : List (Nat × α)} {c : Nat × α} (h : c ∈ cellsPut i v cs) :
    (c = (i, v) ∧ v ≠ default) ∨ c ∈ cs := by
  induction cs with
  | nil =>
    by_cases hv : v = default <;> simp_all [cellsPut]
  | cons d cs ih =>
    obtain ⟨j, w⟩ := d
    simp only [cellsPut] at h
    split_ifs at h with h1 hv h2 hv
    · exact .inr h
    · rcases List.mem_cons.1 h with h | h
      · exact .inl ⟨h, hv⟩
      · exact .inr h
    · exact .inr (List.mem_cons_of_mem _ h)
    · rcases List.mem_cons.1 h with h | h
      · exact .inl ⟨h, hv⟩
      · exact .inr (List.mem_cons_of_mem _ h)
    · rcases List.mem_cons.1 h with h | h
      · exact .inr (by simp [h])
      · exact (ih h).imp_right (List.mem_cons_of_mem _)

theorem cellsPut_rising (i : Nat) (v : α) (cs : List (Nat × α)) (hr : Rising cs) : Rising (cellsPut i v cs) := by
  induction cs with
  | nil => by_cases hv : v = default <;> simp [cellsPut, hv]
  | cons d cs ih =>
    obtain ⟨j, w⟩ := d
    obtain ⟨hj, hcs⟩ := List.pairwise_cons.1 hr
    simp only [cellsPut]
    split_ifs with h1 hv h2 hv
    · exact hr
    · refine List.pairwise_cons.2 ⟨fun c hc => ?_, hr⟩
      rcases List.mem_cons.1 hc with rfl | hc
      · exact h1
      · have := hj c hc; simp only at this ⊢; omega
    · exact hcs
    · subst h2; exact List.pairwise_cons.2 ⟨fun c hc => hj c hc, hcs⟩
    · refine List.pairwise_cons.2 ⟨fun c hc => ?_, ih hcs⟩
      rcases mem_cellsPut hc with ⟨rfl, -⟩ | hc
      · simp only; omega
      · exact hj c hc

omit [DecidableEq α] in
/-- In canonical form, cells that read alike are the same list. -/
theorem cells_ext (cs ds : List (Nat × α)) (hc : Rising cs) (hd : Rising ds) (nc : ∀ c ∈ cs, c.2 ≠ default)
    (nd : ∀ c ∈ ds, c.2 ≠ default) (h : ∀ i, cellsGet i cs = cellsGet i ds) : cs = ds := by
  induction cs generalizing ds with
  | nil =>
    cases ds with
    | nil => rfl
    | cons d ds =>
      have := h d.1
      exact absurd (by simpa [cellsGet] using this.symm) (nd d (by simp))
  | cons c cs ih =>
    cases ds with
    | nil => exact absurd (by simpa [cellsGet] using h c.1) (nc c (by simp))
    | cons d ds =>
      obtain ⟨j, w⟩ := c
      obtain ⟨k, x⟩ := d
      obtain ⟨hj, hcs⟩ := List.pairwise_cons.1 hc
      obtain ⟨hk, hds⟩ := List.pairwise_cons.1 hd
      have get_lt : ∀ (m n : Nat) (es : List (Nat × α)), (∀ e ∈ es, n < e.1) → m ≤ n → cellsGet m es = default :=
        fun m n es he hmn => cellsGet_eq_default m es fun e hm => by have := he e hm; omega
      have hw : w ≠ default := nc (j, w) (by simp)
      have hx : x ≠ default := nd (k, x) (by simp)
      have hjk : j = k := by
        by_contra hne
        rcases Nat.lt_or_gt_of_ne hne with hlt | hlt
        · have := h j
          simp only [cellsGet, if_true, hne, if_false] at this
          exact hw (this.trans (get_lt j k ds hk (by omega)))
        · have := h k
          simp only [cellsGet, if_true, Ne.symm hne, if_false] at this
          exact hx (this.symm.trans (get_lt k j cs hj (by omega)))
      subst hjk
      have hwx : w = x := by simpa [cellsGet] using h j
      subst hwx
      congr 1
      refine ih ds hcs hds (fun c hm => nc c (by simp [hm])) (fun c hm => nd c (by simp [hm])) fun i => ?_
      by_cases hi : i = j
      · subst hi; rw [get_lt i i cs hj le_rfl, get_lt i i ds hk le_rfl]
      · simpa [cellsGet, hi] using h i

/-! ## Banks -/

@[simp] theorem write_size (b : Bank α) (i : Nat) (v : α) : (b.write i v).size = b.size := rfl

theorem read_write (b : Bank α) (i k : Nat) (v : α) (hb : b.wf) :
    (b.write i v).read k = if k = i then v else b.read k := cellsGet_put i k v b.cells hb.2.1

/-- A write inside the bank keeps the canonical form. -/
theorem write_wf (b : Bank α) (i : Nat) (v : α) (hb : b.wf) (hi : i < b.size) : (b.write i v).wf := by
  refine ⟨hb.1, cellsPut_rising i v b.cells hb.2.1, fun c hc => ?_⟩
  rcases mem_cellsPut hc with ⟨rfl, hv⟩ | hc
  · exact ⟨hi, hv⟩
  · exact hb.2.2 c hc

@[simp] theorem writeRange_size (b : Bank α) (a : Nat) (f : Nat → α) (n : Nat) :
    (b.writeRange a f n).size = b.size := by
  induction n with
  | zero => rfl
  | succ n ih => simpa [Bank.writeRange] using ih

theorem writeRange_wf (b : Bank α) (a : Nat) (f : Nat → α) (n : Nat) (hb : b.wf) (hn : a + n ≤ b.size) :
    (b.writeRange a f n).wf := by
  induction n with
  | zero => exact hb
  | succ n ih => exact write_wf _ _ _ (ih (by omega)) (by simp; omega)

/-- After a range write the elements of the range are the written ones and every other element reads as before. -/
theorem read_writeRange (b : Bank α) (a : Nat) (f : Nat → α) (n k : Nat) (hb : b.wf) (hn : a + n ≤ b.size) :
    (b.writeRange a f n).read k = if a ≤ k ∧ k < a + n then f (k - a) else b.read k := by
  induction n with
  | zero => rw [if_neg (by omega)]; rfl
  | succ n ih =>
    rw [Bank.writeRange, read_write _ _ _ _ (writeRange_wf b a f n hb (by omega)), ih (by omega)]
    by_cases hk : k = a + n
    · subst hk
      have : a + n - a = n := by omega
      simp [this]
    · rw [if_neg hk]
      exact if_congr (by omega) rfl rfl

/-- In canonical form, banks of one size that read alike are equal. -/
theorem bank_ext (b c : Bank α) (hb : b.wf) (hc : c.wf) (hs : b.size = c.size) (h : ∀ i, b.read i = c.read i) :
    b = c := by
  obtain ⟨n, cs⟩ := b
  obtain ⟨m, ds⟩ := c
  have hs' : n = m := hs
  subst hs'
  congr 1
  exact cells_ext cs ds hb.2.1 hc.2.1 (fun c h => (hb.2.2 c h).2) (fun c h => (hc.2.2 c h).2) h

omit [DecidableEq α] in
@[simp] theorem fresh_read (n i : Nat) : (Bank.fresh n : Bank α).read i = default := rfl

omit [DecidableEq α] [Inhabited α] in
@[simp] theorem fresh_size (n : Nat) : (Bank.fresh n : Bank α).size = n := rfl

/-- A word not written since registration reads as 0 (R51, R182). -/
@[simp] theorem default_word : (default : BitVec 16) = 0#16 := rfl

theorem fresh_wf (n : Nat) (h : n ≤ Config.maxBankSize) : (Bank.fresh n : Bank α).wf := ⟨h, by simp [Bank.fresh]⟩

/-! ## The register file -/

theorem setBits_wf (m : Memory) (b : BitBank) (v : Bank Bool) (hm : m.wf) (hv : v.wf) : (m.setBits b v).wf := by
  obtain ⟨h1, h2, h3, h4⟩ := hm
  cases b
  · exact ⟨hv, h2, h3, h4⟩
  · exact ⟨h1, hv, h3, h4⟩

theorem setWords_wf (m : Memory) (b : WordBank) (v : Bank Word) (hm : m.wf) (hv : v.wf) : (m.setWords b v).wf := by
  obtain ⟨h1, h2, h3, h4⟩ := hm
  cases b
  · exact ⟨h1, h2, hv, h4⟩
  · exact ⟨h1, h2, h3, hv⟩

theorem bits_wf (m : Memory) (b : BitBank) (hm : m.wf) : (m.bits b).wf := by
  cases b
  · exact hm.1
  · exact hm.2.1

theorem words_wf (m : Memory) (b : WordBank) (hm : m.wf) : (m.words b).wf := by
  cases b
  · exact hm.2.2.1
  · exact hm.2.2.2

@[simp] theorem bits_setBits (m : Memory) (b : BitBank) (v : Bank Bool) : (m.setBits b v).bits b = v := by
  cases b <;> rfl

@[simp] theorem words_setWords (m : Memory) (b : WordBank) (v : Bank Word) : (m.setWords b v).words b = v := by
  cases b <;> rfl

@[simp] theorem words_setBits (m : Memory) (b : BitBank) (v : Bank Bool) (w : WordBank) :
    (m.setBits b v).words w = m.words w := by
  cases b <;> cases w <;> rfl

@[simp] theorem bits_setWords (m : Memory) (b : WordBank) (v : Bank Word) (w : BitBank) :
    (m.setWords b v).bits w = m.bits w := by
  cases b <;> cases w <;> rfl

theorem bits_setBits_of_ne (m : Memory) (b c : BitBank) (v : Bank Bool) (h : c ≠ b) :
    (m.setBits b v).bits c = m.bits c := by
  cases b <;> cases c <;> first | rfl | exact absurd rfl h

theorem words_setWords_of_ne (m : Memory) (b c : WordBank) (v : Bank Word) (h : c ≠ b) :
    (m.setWords b v).words c = m.words c := by
  cases b <;> cases c <;> first | rfl | exact absurd rfl h

end Sys2Proof.Machine
end

