-- ==== Sys2Proof/Laws/Word.lean ====
section
/-! SUPPORT. Byte order: `hi8`, `lo8` and `toWord` undo each other (00_scope.md R11). -/

namespace Sys2Proof

@[simp] theorem toWord_hi8_lo8 (w : Word) : toWord (hi8 w) (lo8 w) = w := by
  apply BitVec.eq_of_getLsbD_eq
  intro i hi
  by_cases h : i < 8
  · simp [toWord, hi8, lo8, h, hi]
  · have h8 : i - 8 < 8 := by omega
    have h' : 8 + (i - 8) = i := by omega
    simp [toWord, hi8, lo8, h, hi, h8, h']

@[simp] theorem hi8_toWord (h l : Byte) : hi8 (toWord h l) = h := by
  apply BitVec.eq_of_getLsbD_eq
  intro i hi
  have h1 : ¬ (8 + i < 8) := by omega
  have h2 : 8 + i < 16 := by omega
  simp [toWord, hi8, h1, h2, hi]

@[simp] theorem lo8_toWord (h l : Byte) : lo8 (toWord h l) = l := by
  apply BitVec.eq_of_getLsbD_eq
  intro i hi
  have h2 : i < 16 := by omega
  simp [toWord, lo8, h2, hi]

/-- A word is told by its two bytes. -/
theorem eq_toWord_iff (w : Word) (h l : Byte) : w = toWord h l ↔ h = hi8 w ∧ l = lo8 w := by
  constructor
  · rintro rfl; simp
  · rintro ⟨rfl, rfl⟩; simp

end Sys2Proof
end

