-- ==== Sys2Proof/Laws/Decode.lean ====
section
/-! SUPPORT. The decoder: what its tables hold, and that a decoded instruction begins with its body's id and code. -/

namespace Sys2Proof

/-- No code stands in two rows of the function-code map (30_encoding.md R68). -/
theorem function_codes_distinct : (fixedRows.map Prod.fst ++ multiRows.map Prod.fst).Nodup := by decide

/-- A code of neither table is none of the eight, and the other way round (R68, R69). -/
theorem lookup_none_iff (fc : Byte) :
    fixedRows.lookup fc = none ∧ multiRows.lookup fc = none ↔ fc ∉ legalCodes := by
  simp only [fixedRows, multiRows, List.lookup_eq_none_iff, legalCodes, List.mem_cons, List.not_mem_nil, or_false,
    forall_eq_or_imp, forall_eq, bne_iff_ne]
  tauto

/-- The row of a code in the table of fixed-length requests. -/
theorem fixedRows_lookup {fc : Byte} {mk} (h : fixedRows.lookup fc = some mk) :
    (fc = fcRdCoils ∧ mk = .rdCoils) ∨ (fc = fcRdDiscrete ∧ mk = .rdDiscrete) ∨ (fc = fcRdHolding ∧ mk = .rdHolding) ∨
      (fc = fcRdInput ∧ mk = .rdInput) ∨ (fc = fcWrCoil ∧ mk = .wrCoil) ∨ (fc = fcWrReg ∧ mk = .wrReg) := by
  simp only [fixedRows, List.lookup] at h
  repeat (split at h <;> [(simp only [beq_iff_eq] at *; simp_all); skip])
  simp at h

/-- The row of a code in the table of multiple writes. -/
theorem multiRows_lookup {fc : Byte} {mk} (h : multiRows.lookup fc = some mk) :
    (fc = fcWrCoils ∧ mk = .wrCoils) ∨ (fc = fcWrRegs ∧ mk = .wrRegs) := by
  simp only [multiRows, List.lookup] at h
  repeat (split at h <;> [(simp only [beq_iff_eq] at *; simp_all); skip])
  simp at h

/-- What a fixed-length body can decode to. -/
theorem decodeFixed_eq {id fc : Byte} {mk : Byte → Word → Word → Instr} {l : List Byte} {d : Decoded}
    (h : decodeFixed id fc mk l = d) :
    (∃ ah al xh xl, l = [ah, al, xh, xl] ∧ d = .instr (mk id (toWord ah al) (toWord xh xl))) ∨
      (l.length ≠ 4 ∧ d = .badLength id fc) := by
  subst h
  match l with
  | [] => exact .inr ⟨by simp, rfl⟩
  | [_] => exact .inr ⟨by simp, rfl⟩
  | [_, _] => exact .inr ⟨by simp, rfl⟩
  | [_, _, _] => exact .inr ⟨by simp, rfl⟩
  | [a, b, c, e] => exact .inl ⟨a, b, c, e, rfl, rfl⟩
  | _ :: _ :: _ :: _ :: _ :: _ => exact .inr ⟨by simp, rfl⟩

/-- What a multiple-write body can decode to. -/
theorem decodeMulti_eq {id fc : Byte} {mk : Byte → Word → Word → Byte → List Byte → Instr} {l : List Byte} {d : Decoded}
    (h : decodeMulti id fc mk l = d) :
    (∃ ah al qh ql bc data, l = ah :: al :: qh :: ql :: bc :: data ∧
        d = .instr (mk id (toWord ah al) (toWord qh ql) bc data)) ∨
      (l.length < 5 ∧ d = .badLength id fc) := by
  subst h
  match l with
  | [] => exact .inr ⟨by simp, rfl⟩
  | [_] => exact .inr ⟨by simp, rfl⟩
  | [_, _] => exact .inr ⟨by simp, rfl⟩
  | [_, _, _] => exact .inr ⟨by simp, rfl⟩
  | [_, _, _, _] => exact .inr ⟨by simp, rfl⟩
  | a :: b :: c :: e :: f :: g => exact .inl ⟨a, b, c, e, f, g, rfl, rfl⟩

/-- A body begins with the id and the code of what it decodes to. -/
theorem decode_instr_head {p : List Byte} {i : Instr} (h : decode p = .instr i) :
    ∃ rest, p = i.id :: i.fc :: rest := by
  match p with
  | [] => simp [decode] at h
  | [_] => simp [decode] at h
  | id :: fc :: rest =>
    simp only [decode] at h
    split at h
    · rename_i mk hmk
      rcases decodeFixed_eq h with ⟨_, _, _, _, -, hd⟩ | ⟨-, hd⟩
      · cases hd
        rcases fixedRows_lookup hmk with ⟨rfl, rfl⟩ | ⟨rfl, rfl⟩ | ⟨rfl, rfl⟩ | ⟨rfl, rfl⟩ | ⟨rfl, rfl⟩ | ⟨rfl, rfl⟩ <;>
          exact ⟨rest, rfl⟩
      · cases hd
    · split at h
      · rename_i mk hmk
        rcases decodeMulti_eq h with ⟨_, _, _, _, _, _, -, hd⟩ | ⟨-, hd⟩
        · cases hd
          rcases multiRows_lookup hmk with ⟨rfl, rfl⟩ | ⟨rfl, rfl⟩ <;> exact ⟨rest, rfl⟩
        · cases hd
      · cases h; exact ⟨rest, rfl⟩

theorem decode_badLength_head {p : List Byte} {id fc : Byte} (h : decode p = .badLength id fc) :
    ∃ rest, p = id :: fc :: rest := by
  match p with
  | [] => simp [decode] at h
  | [_] => simp [decode] at h
  | a :: b :: rest =>
    simp only [decode] at h
    split at h
    · rcases decodeFixed_eq h with ⟨_, _, _, _, -, hd⟩ | ⟨-, hd⟩ <;> cases hd
      exact ⟨rest, rfl⟩
    · split at h
      · rcases decodeMulti_eq h with ⟨_, _, _, _, _, _, -, hd⟩ | ⟨-, hd⟩ <;> cases hd
        exact ⟨rest, rfl⟩
      · cases h

/-- The catch-all, and it alone, stands for a code outside the eight (R69). -/
theorem decode_illegal_iff {p : List Byte} {i : Instr} (h : decode p = .instr i) :
    (∃ id fc, i = .illegalFunction id fc) ↔ i.fc ∉ legalCodes := by
  match p with
  | [] => simp [decode] at h
  | [_] => simp [decode] at h
  | id :: fc :: rest =>
    simp only [decode] at h
    split at h
    · rename_i mk hmk
      rcases decodeFixed_eq h with ⟨_, _, _, _, -, hd⟩ | ⟨-, hd⟩
      · cases hd
        rcases fixedRows_lookup hmk with ⟨rfl, rfl⟩ | ⟨rfl, rfl⟩ | ⟨rfl, rfl⟩ | ⟨rfl, rfl⟩ | ⟨rfl, rfl⟩ | ⟨rfl, rfl⟩ <;>
          simp [Instr.fc]
      · cases hd
    · split at h
      · rename_i mk hmk
        rcases decodeMulti_eq h with ⟨_, _, _, _, _, _, -, hd⟩ | ⟨-, hd⟩
        · cases hd
          rcases multiRows_lookup hmk with ⟨rfl, rfl⟩ | ⟨rfl, rfl⟩ <;> simp [Instr.fc]
        · cases hd
      · cases h
        exact iff_of_true ⟨_, _, rfl⟩ ((lookup_none_iff fc).1 ⟨‹_›, ‹_›⟩)

/-- Only the eight codes have a wrong length (R96, R97). -/
theorem decode_badLength_legal {p : List Byte} {id fc : Byte} (h : decode p = .badLength id fc) : fc ∈ legalCodes := by
  obtain ⟨rest, rfl⟩ := decode_badLength_head h
  by_contra hl
  obtain ⟨h1, h2⟩ := (lookup_none_iff fc).2 hl
  simp [decode, h1, h2] at h

end Sys2Proof
end

