-- ==== Sys2Proof/Laws/Operands.lean ====
section
/-! SUPPORT. Packed bits, packed words and the CRC: one lemma per function on what it computes. -/

namespace Sys2Proof.Machine

/-! ## CRC -/

@[simp] theorem crc16_nil : crc16 [] = Config.crcInit := rfl

theorem crc16_append (bs cs : List Byte) : crc16 (bs ++ cs) = cs.foldl crcByte (crc16 bs) := by
  simp [crc16, List.foldl_append]

theorem withCrc_length (crcEn : Bool) (p : List Byte) :
    (withCrc crcEn p).length = p.length + if crcEn then 2 else 0 := by
  cases crcEn <;> simp [withCrc]

/-! ## Bits -/

theorem packByte_getLsbD (f : Nat → Bool) (n k : Nat) (hn : n ≤ 8) :
    (packByte f n).getLsbD k = (decide (k < n) && f k) := by
  induction n with
  | zero => simp [packByte]
  | succ n ih =>
    have h1 : (1#8 <<< n).getLsbD k = decide (k = n) := by
      by_cases hk : k = n
      · subst hk; simp; omega
      · simp [hk]; omega
    simp only [packByte, BitVec.getLsbD_or, ih (by omega)]
    by_cases hk : k = n
    · subst hk; by_cases hf : f k <;> simp [hf, h1]
    · have hlt : decide (k < n + 1) = decide (k < n) := decide_eq_decide.2 (by omega)
      rw [hlt]; by_cases hf : f n <;> simp [hf, h1, hk]

@[simp] theorem packBits_length (f : Nat → Bool) (qty : Nat) : (packBits f qty).length = ceil8 qty := by
  simp [packBits]

/-- Bit k of packed byte i is element `8*i+k` of the range, and 0 beyond it (R121). -/
theorem packBits_getLsbD (f : Nat → Bool) (qty i k : Nat) (hi : i < ceil8 qty) (hk : k < 8) :
    ((packBits f qty).getD i 0).getLsbD k = (decide (8 * i + k < qty) && f (8 * i + k)) := by
  have : (packBits f qty).getD i 0 = packByte (fun k => decide (8 * i + k < qty) && f (8 * i + k)) 8 := by
    simp [packBits, List.getD_eq_getElem?_getD, hi]
  rw [this, packByte_getLsbD _ _ _ le_rfl]
  simp [hk]

/-! ## Words -/

theorem packWords_succ (f : Nat → Word) (n : Nat) :
    packWords f (n + 1) = packWords f n ++ [hi8 (f n), lo8 (f n)] := by
  simp [packWords, List.range_succ]

@[simp] theorem packWords_length (f : Nat → Word) (qty : Nat) : (packWords f qty).length = 2 * qty := by
  induction qty with
  | zero => rfl
  | succ n ih => simp [packWords_succ, ih]; omega

/-- Word j of the packed words is its high byte followed by its low byte (R122). -/
theorem packWords_getD (f : Nat → Word) (qty j : Nat) (hj : j < qty) :
    (packWords f qty).getD (2 * j) 0 = hi8 (f j) ∧ (packWords f qty).getD (2 * j + 1) 0 = lo8 (f j) := by
  induction qty with
  | zero => omega
  | succ n ih =>
    by_cases h : j < n
    · have h1 := (ih h).1
      have h2 := (ih h).2
      rw [packWords_succ, List.getD_append _ _ _ _ (by simp; omega), List.getD_append _ _ _ _ (by simp; omega)]
      exact ⟨h1, h2⟩
    · have : j = n := by omega
      subst this
      rw [packWords_succ, List.getD_append_right _ _ _ _ (by simp), List.getD_append_right _ _ _ _ (by simp)]
      simp

end Sys2Proof.Machine
end

