-- ==== Sys2Proof/Laws/State.lean ====
section
/-! SUPPORT. One lemma per field per state update, each true by rfl, so that no proof unfolds a record update. -/

namespace Sys2Proof.Machine

/-! ## putMem -/

@[simp] theorem putMem_mem (m : Memory) (s : State) :
    (putMem m s).mem = m := rfl
@[simp] theorem putMem_deviceId (m : Memory) (s : State) :
    (putMem m s).deviceId = s.deviceId := rfl
@[simp] theorem putMem_crcEn (m : Memory) (s : State) :
    (putMem m s).crcEn = s.crcEn := rfl
@[simp] theorem putMem_frame (m : Memory) (s : State) :
    (putMem m s).frame = s.frame := rfl
@[simp] theorem putMem_body (m : Memory) (s : State) :
    (putMem m s).body = s.body := rfl
@[simp] theorem putMem_crcAcc (m : Memory) (s : State) :
    (putMem m s).crcAcc = s.crcAcc := rfl
@[simp] theorem putMem_reply (m : Memory) (s : State) :
    (putMem m s).reply = s.reply := rfl
@[simp] theorem putMem_rx (m : Memory) (s : State) :
    (putMem m s).rx = s.rx := rfl
@[simp] theorem putMem_tx (m : Memory) (s : State) :
    (putMem m s).tx = s.tx := rfl
@[simp] theorem putMem_outcome (m : Memory) (s : State) :
    (putMem m s).outcome = s.outcome := rfl
@[simp] theorem putMem_hostValue (m : Memory) (s : State) :
    (putMem m s).hostValue = s.hostValue := rfl
@[simp] theorem putMem_moves (m : Memory) (s : State) :
    (putMem m s).moves = s.moves := rfl
@[simp] theorem putMem_freeCount (m : Memory) (s : State) :
    (putMem m s).freeCount = s.freeCount := rfl
@[simp] theorem putMem_refused (m : Memory) (s : State) :
    (putMem m s).refused = s.refused := rfl

/-! ## sendReply -/

@[simp] theorem sendReply_mem (raised : Bool) (id : Byte) (r : List Byte) (s : State) :
    (sendReply raised id r s).mem = s.mem := rfl
@[simp] theorem sendReply_deviceId (raised : Bool) (id : Byte) (r : List Byte) (s : State) :
    (sendReply raised id r s).deviceId = s.deviceId := rfl
@[simp] theorem sendReply_crcEn (raised : Bool) (id : Byte) (r : List Byte) (s : State) :
    (sendReply raised id r s).crcEn = s.crcEn := rfl
@[simp] theorem sendReply_frame (raised : Bool) (id : Byte) (r : List Byte) (s : State) :
    (sendReply raised id r s).frame = s.frame := rfl
@[simp] theorem sendReply_body (raised : Bool) (id : Byte) (r : List Byte) (s : State) :
    (sendReply raised id r s).body = s.body := rfl
@[simp] theorem sendReply_crcAcc (raised : Bool) (id : Byte) (r : List Byte) (s : State) :
    (sendReply raised id r s).crcAcc = if s.crcEn = true ∧ id ≠ Config.broadcastId then crc16 r else s.crcAcc := rfl
@[simp] theorem sendReply_reply (raised : Bool) (id : Byte) (r : List Byte) (s : State) :
    (sendReply raised id r s).reply = r := rfl
@[simp] theorem sendReply_rx (raised : Bool) (id : Byte) (r : List Byte) (s : State) :
    (sendReply raised id r s).rx = s.rx := rfl
@[simp] theorem sendReply_tx (raised : Bool) (id : Byte) (r : List Byte) (s : State) :
    (sendReply raised id r s).tx = emitted s.crcEn id r := rfl
@[simp] theorem sendReply_outcome (raised : Bool) (id : Byte) (r : List Byte) (s : State) :
    (sendReply raised id r s).outcome = some (classify raised id) := rfl
@[simp] theorem sendReply_hostValue (raised : Bool) (id : Byte) (r : List Byte) (s : State) :
    (sendReply raised id r s).hostValue = s.hostValue := rfl
@[simp] theorem sendReply_moves (raised : Bool) (id : Byte) (r : List Byte) (s : State) :
    (sendReply raised id r s).moves = s.moves := rfl
@[simp] theorem sendReply_freeCount (raised : Bool) (id : Byte) (r : List Byte) (s : State) :
    (sendReply raised id r s).freeCount = s.freeCount := rfl
@[simp] theorem sendReply_refused (raised : Bool) (id : Byte) (r : List Byte) (s : State) :
    (sendReply raised id r s).refused = s.refused := rfl

/-! ## takeException -/

@[simp] theorem takeException_mem (id fc : Byte) (code : ExcCode) (s : State) :
    (takeException id fc code s).mem = s.mem := rfl
@[simp] theorem takeException_deviceId (id fc : Byte) (code : ExcCode) (s : State) :
    (takeException id fc code s).deviceId = s.deviceId := rfl
@[simp] theorem takeException_crcEn (id fc : Byte) (code : ExcCode) (s : State) :
    (takeException id fc code s).crcEn = s.crcEn := rfl
@[simp] theorem takeException_frame (id fc : Byte) (code : ExcCode) (s : State) :
    (takeException id fc code s).frame = s.frame := rfl
@[simp] theorem takeException_body (id fc : Byte) (code : ExcCode) (s : State) :
    (takeException id fc code s).body = s.body := rfl
@[simp] theorem takeException_reply (id fc : Byte) (code : ExcCode) (s : State) :
    (takeException id fc code s).reply = [id, fc ||| Config.excMarker, code.toByte] := rfl
@[simp] theorem takeException_rx (id fc : Byte) (code : ExcCode) (s : State) :
    (takeException id fc code s).rx = s.rx := rfl
@[simp] theorem takeException_tx (id fc : Byte) (code : ExcCode) (s : State) :
    (takeException id fc code s).tx = emitted s.crcEn id [id, fc ||| Config.excMarker, code.toByte] := rfl
@[simp] theorem takeException_outcome (id fc : Byte) (code : ExcCode) (s : State) :
    (takeException id fc code s).outcome = some (classify true id) := rfl
@[simp] theorem takeException_hostValue (id fc : Byte) (code : ExcCode) (s : State) :
    (takeException id fc code s).hostValue = s.hostValue := rfl
@[simp] theorem takeException_moves (id fc : Byte) (code : ExcCode) (s : State) :
    (takeException id fc code s).moves = s.moves := rfl
@[simp] theorem takeException_freeCount (id fc : Byte) (code : ExcCode) (s : State) :
    (takeException id fc code s).freeCount = s.freeCount := rfl
@[simp] theorem takeException_refused (id fc : Byte) (code : ExcCode) (s : State) :
    (takeException id fc code s).refused = s.refused := rfl

/-! ## markRefused -/

@[simp] theorem markRefused_mem (s : State) :
    (markRefused s).mem = s.mem := rfl
@[simp] theorem markRefused_deviceId (s : State) :
    (markRefused s).deviceId = s.deviceId := rfl
@[simp] theorem markRefused_crcEn (s : State) :
    (markRefused s).crcEn = s.crcEn := rfl
@[simp] theorem markRefused_frame (s : State) :
    (markRefused s).frame = s.frame := rfl
@[simp] theorem markRefused_body (s : State) :
    (markRefused s).body = s.body := rfl
@[simp] theorem markRefused_crcAcc (s : State) :
    (markRefused s).crcAcc = s.crcAcc := rfl
@[simp] theorem markRefused_reply (s : State) :
    (markRefused s).reply = s.reply := rfl
@[simp] theorem markRefused_rx (s : State) :
    (markRefused s).rx = s.rx := rfl
@[simp] theorem markRefused_tx (s : State) :
    (markRefused s).tx = s.tx := rfl
@[simp] theorem markRefused_outcome (s : State) :
    (markRefused s).outcome = s.outcome := rfl
@[simp] theorem markRefused_hostValue (s : State) :
    (markRefused s).hostValue = s.hostValue := rfl
@[simp] theorem markRefused_moves (s : State) :
    (markRefused s).moves = s.moves := rfl
@[simp] theorem markRefused_freeCount (s : State) :
    (markRefused s).freeCount = s.freeCount := rfl
@[simp] theorem markRefused_refused (s : State) :
    (markRefused s).refused = true := rfl

/-! ## captureFrame -/

@[simp] theorem captureFrame_mem (rx late : List Byte) (s : State) :
    (captureFrame rx late s).mem = s.mem := rfl
@[simp] theorem captureFrame_deviceId (rx late : List Byte) (s : State) :
    (captureFrame rx late s).deviceId = s.deviceId := rfl
@[simp] theorem captureFrame_crcEn (rx late : List Byte) (s : State) :
    (captureFrame rx late s).crcEn = s.crcEn := rfl
@[simp] theorem captureFrame_frame (rx late : List Byte) (s : State) :
    (captureFrame rx late s).frame = rx.take Config.maxFrame := rfl
@[simp] theorem captureFrame_body (rx late : List Byte) (s : State) :
    (captureFrame rx late s).body = s.body := rfl
@[simp] theorem captureFrame_crcAcc (rx late : List Byte) (s : State) :
    (captureFrame rx late s).crcAcc = s.crcAcc := rfl
@[simp] theorem captureFrame_reply (rx late : List Byte) (s : State) :
    (captureFrame rx late s).reply = s.reply := rfl
@[simp] theorem captureFrame_rx (rx late : List Byte) (s : State) :
    (captureFrame rx late s).rx = rx.drop Config.maxFrame ++ late := rfl
@[simp] theorem captureFrame_tx (rx late : List Byte) (s : State) :
    (captureFrame rx late s).tx = s.tx := rfl
@[simp] theorem captureFrame_outcome (rx late : List Byte) (s : State) :
    (captureFrame rx late s).outcome = s.outcome := rfl
@[simp] theorem captureFrame_hostValue (rx late : List Byte) (s : State) :
    (captureFrame rx late s).hostValue = s.hostValue := rfl
@[simp] theorem captureFrame_moves (rx late : List Byte) (s : State) :
    (captureFrame rx late s).moves = s.moves := rfl
@[simp] theorem captureFrame_freeCount (rx late : List Byte) (s : State) :
    (captureFrame rx late s).freeCount = s.freeCount := rfl
@[simp] theorem captureFrame_refused (rx late : List Byte) (s : State) :
    (captureFrame rx late s).refused = s.refused := rfl

/-! ## loadBody -/

@[simp] theorem loadBody_mem (p : List Byte) (s : State) :
    (loadBody p s).mem = s.mem := rfl
@[simp] theorem loadBody_deviceId (p : List Byte) (s : State) :
    (loadBody p s).deviceId = s.deviceId := rfl
@[simp] theorem loadBody_crcEn (p : List Byte) (s : State) :
    (loadBody p s).crcEn = s.crcEn := rfl
@[simp] theorem loadBody_frame (p : List Byte) (s : State) :
    (loadBody p s).frame = s.frame := rfl
@[simp] theorem loadBody_body (p : List Byte) (s : State) :
    (loadBody p s).body = p := rfl
@[simp] theorem loadBody_crcAcc (p : List Byte) (s : State) :
    (loadBody p s).crcAcc = if s.crcEn then crc16 p else s.crcAcc := rfl
@[simp] theorem loadBody_reply (p : List Byte) (s : State) :
    (loadBody p s).reply = s.reply := rfl
@[simp] theorem loadBody_rx (p : List Byte) (s : State) :
    (loadBody p s).rx = s.rx := rfl
@[simp] theorem loadBody_tx (p : List Byte) (s : State) :
    (loadBody p s).tx = s.tx := rfl
@[simp] theorem loadBody_outcome (p : List Byte) (s : State) :
    (loadBody p s).outcome = s.outcome := rfl
@[simp] theorem loadBody_hostValue (p : List Byte) (s : State) :
    (loadBody p s).hostValue = s.hostValue := rfl
@[simp] theorem loadBody_moves (p : List Byte) (s : State) :
    (loadBody p s).moves = s.moves := rfl
@[simp] theorem loadBody_freeCount (p : List Byte) (s : State) :
    (loadBody p s).freeCount = s.freeCount := rfl
@[simp] theorem loadBody_refused (p : List Byte) (s : State) :
    (loadBody p s).refused = s.refused := rfl

/-! ## dropFrame -/

@[simp] theorem dropFrame_mem (o : TxnOutcome) (s : State) :
    (dropFrame o s).mem = s.mem := rfl
@[simp] theorem dropFrame_deviceId (o : TxnOutcome) (s : State) :
    (dropFrame o s).deviceId = s.deviceId := rfl
@[simp] theorem dropFrame_crcEn (o : TxnOutcome) (s : State) :
    (dropFrame o s).crcEn = s.crcEn := rfl
@[simp] theorem dropFrame_frame (o : TxnOutcome) (s : State) :
    (dropFrame o s).frame = s.frame := rfl
@[simp] theorem dropFrame_body (o : TxnOutcome) (s : State) :
    (dropFrame o s).body = s.body := rfl
@[simp] theorem dropFrame_crcAcc (o : TxnOutcome) (s : State) :
    (dropFrame o s).crcAcc = s.crcAcc := rfl
@[simp] theorem dropFrame_reply (o : TxnOutcome) (s : State) :
    (dropFrame o s).reply = s.reply := rfl
@[simp] theorem dropFrame_rx (o : TxnOutcome) (s : State) :
    (dropFrame o s).rx = s.rx := rfl
@[simp] theorem dropFrame_tx (o : TxnOutcome) (s : State) :
    (dropFrame o s).tx = [] := rfl
@[simp] theorem dropFrame_outcome (o : TxnOutcome) (s : State) :
    (dropFrame o s).outcome = some o := rfl
@[simp] theorem dropFrame_hostValue (o : TxnOutcome) (s : State) :
    (dropFrame o s).hostValue = s.hostValue := rfl
@[simp] theorem dropFrame_moves (o : TxnOutcome) (s : State) :
    (dropFrame o s).moves = s.moves := rfl
@[simp] theorem dropFrame_freeCount (o : TxnOutcome) (s : State) :
    (dropFrame o s).freeCount = s.freeCount := rfl
@[simp] theorem dropFrame_refused (o : TxnOutcome) (s : State) :
    (dropFrame o s).refused = s.refused := rfl

/-! ## endTransaction -/

@[simp] theorem endTransaction_mem (s : State) :
    (endTransaction s).mem = s.mem := rfl
@[simp] theorem endTransaction_deviceId (s : State) :
    (endTransaction s).deviceId = s.deviceId := rfl
@[simp] theorem endTransaction_crcEn (s : State) :
    (endTransaction s).crcEn = s.crcEn := rfl
@[simp] theorem endTransaction_frame (s : State) :
    (endTransaction s).frame = (Config.freeBytes s.freeCount).take Config.maxFrame := rfl
@[simp] theorem endTransaction_body (s : State) :
    (endTransaction s).body = (Config.freeBytes (s.freeCount + 1)).take Config.maxFrame := rfl
@[simp] theorem endTransaction_crcAcc (s : State) :
    (endTransaction s).crcAcc = Config.freeWord s.freeCount := rfl
@[simp] theorem endTransaction_reply (s : State) :
    (endTransaction s).reply = (Config.freeBytes (s.freeCount + 2)).take Config.maxReply := rfl
@[simp] theorem endTransaction_rx (s : State) :
    (endTransaction s).rx = [] := rfl
@[simp] theorem endTransaction_tx (s : State) :
    (endTransaction s).tx = s.tx := rfl
@[simp] theorem endTransaction_outcome (s : State) :
    (endTransaction s).outcome = s.outcome := rfl
@[simp] theorem endTransaction_hostValue (s : State) :
    (endTransaction s).hostValue = s.hostValue := rfl
@[simp] theorem endTransaction_moves (s : State) :
    (endTransaction s).moves = s.moves := rfl
@[simp] theorem endTransaction_freeCount (s : State) :
    (endTransaction s).freeCount = s.freeCount + 3 := rfl
@[simp] theorem endTransaction_refused (s : State) :
    (endTransaction s).refused = s.refused := rfl

/-! ## idle -/

@[simp] theorem idle_mem (s : State) :
    (idle s).mem = s.mem := rfl
@[simp] theorem idle_deviceId (s : State) :
    (idle s).deviceId = s.deviceId := rfl
@[simp] theorem idle_crcEn (s : State) :
    (idle s).crcEn = s.crcEn := rfl
@[simp] theorem idle_frame (s : State) :
    (idle s).frame = s.frame := rfl
@[simp] theorem idle_body (s : State) :
    (idle s).body = s.body := rfl
@[simp] theorem idle_crcAcc (s : State) :
    (idle s).crcAcc = s.crcAcc := rfl
@[simp] theorem idle_reply (s : State) :
    (idle s).reply = s.reply := rfl
@[simp] theorem idle_rx (s : State) :
    (idle s).rx = s.rx := rfl
@[simp] theorem idle_tx (s : State) :
    (idle s).tx = s.tx := rfl
@[simp] theorem idle_outcome (s : State) :
    (idle s).outcome = some .idle := rfl
@[simp] theorem idle_hostValue (s : State) :
    (idle s).hostValue = s.hostValue := rfl
@[simp] theorem idle_moves (s : State) :
    (idle s).moves = s.moves := rfl
@[simp] theorem idle_freeCount (s : State) :
    (idle s).freeCount = s.freeCount := rfl
@[simp] theorem idle_refused (s : State) :
    (idle s).refused = s.refused := rfl

/-! ## clearOutputs -/

@[simp] theorem clearOutputs_mem (s : State) :
    (clearOutputs s).mem = s.mem := rfl
@[simp] theorem clearOutputs_deviceId (s : State) :
    (clearOutputs s).deviceId = s.deviceId := rfl
@[simp] theorem clearOutputs_crcEn (s : State) :
    (clearOutputs s).crcEn = s.crcEn := rfl
@[simp] theorem clearOutputs_frame (s : State) :
    (clearOutputs s).frame = s.frame := rfl
@[simp] theorem clearOutputs_body (s : State) :
    (clearOutputs s).body = s.body := rfl
@[simp] theorem clearOutputs_crcAcc (s : State) :
    (clearOutputs s).crcAcc = s.crcAcc := rfl
@[simp] theorem clearOutputs_reply (s : State) :
    (clearOutputs s).reply = s.reply := rfl
@[simp] theorem clearOutputs_rx (s : State) :
    (clearOutputs s).rx = s.rx := rfl
@[simp] theorem clearOutputs_tx (s : State) :
    (clearOutputs s).tx = [] := rfl
@[simp] theorem clearOutputs_outcome (s : State) :
    (clearOutputs s).outcome = none := rfl
@[simp] theorem clearOutputs_hostValue (s : State) :
    (clearOutputs s).hostValue = none := rfl
@[simp] theorem clearOutputs_moves (s : State) :
    (clearOutputs s).moves = s.moves := rfl
@[simp] theorem clearOutputs_freeCount (s : State) :
    (clearOutputs s).freeCount = s.freeCount := rfl
@[simp] theorem clearOutputs_refused (s : State) :
    (clearOutputs s).refused = s.refused := rfl

/-! ## clearInput -/

@[simp] theorem clearInput_mem (s : State) :
    (clearInput s).mem = s.mem := rfl
@[simp] theorem clearInput_deviceId (s : State) :
    (clearInput s).deviceId = s.deviceId := rfl
@[simp] theorem clearInput_crcEn (s : State) :
    (clearInput s).crcEn = s.crcEn := rfl
@[simp] theorem clearInput_frame (s : State) :
    (clearInput s).frame = s.frame := rfl
@[simp] theorem clearInput_body (s : State) :
    (clearInput s).body = s.body := rfl
@[simp] theorem clearInput_crcAcc (s : State) :
    (clearInput s).crcAcc = s.crcAcc := rfl
@[simp] theorem clearInput_reply (s : State) :
    (clearInput s).reply = s.reply := rfl
@[simp] theorem clearInput_rx (s : State) :
    (clearInput s).rx = [] := rfl
@[simp] theorem clearInput_tx (s : State) :
    (clearInput s).tx = s.tx := rfl
@[simp] theorem clearInput_outcome (s : State) :
    (clearInput s).outcome = s.outcome := rfl
@[simp] theorem clearInput_hostValue (s : State) :
    (clearInput s).hostValue = s.hostValue := rfl
@[simp] theorem clearInput_moves (s : State) :
    (clearInput s).moves = s.moves := rfl
@[simp] theorem clearInput_freeCount (s : State) :
    (clearInput s).freeCount = s.freeCount := rfl
@[simp] theorem clearInput_refused (s : State) :
    (clearInput s).refused = s.refused := rfl

/-! ## beginStep -/

@[simp] theorem beginStep_mem (s : State) :
    (beginStep s).mem = s.mem := rfl
@[simp] theorem beginStep_deviceId (s : State) :
    (beginStep s).deviceId = s.deviceId := rfl
@[simp] theorem beginStep_crcEn (s : State) :
    (beginStep s).crcEn = s.crcEn := rfl
@[simp] theorem beginStep_frame (s : State) :
    (beginStep s).frame = s.frame := rfl
@[simp] theorem beginStep_body (s : State) :
    (beginStep s).body = s.body := rfl
@[simp] theorem beginStep_crcAcc (s : State) :
    (beginStep s).crcAcc = s.crcAcc := rfl
@[simp] theorem beginStep_reply (s : State) :
    (beginStep s).reply = s.reply := rfl
@[simp] theorem beginStep_rx (s : State) :
    (beginStep s).rx = [] := rfl
@[simp] theorem beginStep_tx (s : State) :
    (beginStep s).tx = [] := rfl
@[simp] theorem beginStep_outcome (s : State) :
    (beginStep s).outcome = none := rfl
@[simp] theorem beginStep_hostValue (s : State) :
    (beginStep s).hostValue = none := rfl
@[simp] theorem beginStep_moves (s : State) :
    (beginStep s).moves = s.moves.tail := rfl
@[simp] theorem beginStep_freeCount (s : State) :
    (beginStep s).freeCount = s.freeCount := rfl
@[simp] theorem beginStep_refused (s : State) :
    (beginStep s).refused = s.refused := rfl

end Sys2Proof.Machine
end

