-- ==== Sys2Proof/Laws/Ops.lean ====
section
/-! SUPPORT. The checks, the reply encoder and the exec of each instruction: one lemma per shared operation on all it can
do. -/

namespace Sys2Proof.Machine

/-! ## Checks -/

/-- The first of two checks that fails is reported. -/
theorem failing_or (p : Prop) [Decidable p] (c : ExcCode) (x : Option ExcCode) :
    (if p then some c else none).or x = if p then some c else x := by
  split <;> rfl

/-- Two checks that report one code are one check. -/
theorem merge_checks (p q : Prop) [Decidable p] [Decidable q] (c : ExcCode) (x : Option ExcCode) :
    (if p then some c else if q then some c else x) = if p ∨ q then some c else x := by
  by_cases hp : p <;> simp [hp]

/-- The outcome of a read's checks, in order (R120). -/
theorem checkRead_eq (size addr qty bc : Nat) : checkRead size addr qty bc =
    if size ≤ addr then some .illegalDataAddress
    else if qty = 0 ∨ size < addr + qty ∨ 251 < bc then some .illegalDataValue else none := by
  unfold checkRead checkAddr checkRange checkCapacity
  rw [failing_or, failing_or, merge_checks]
  exact if_congr Iff.rfl rfl (if_congr (by simp only [Config.maxReply]; omega) rfl rfl)

/-- The outcome of a multiple write's checks, in order (R140). -/
theorem checkMulti_eq (size addr qty bc want len : Nat) : checkMulti size addr qty bc want len =
    if size ≤ addr then some .illegalDataAddress
    else if qty = 0 ∨ size < addr + qty ∨ bc ≠ want ∨ len ≠ bc then some .illegalDataValue else none := by
  unfold checkMulti checkAddr checkRange checkCount
  rw [failing_or, failing_or, failing_or, merge_checks, merge_checks]
  exact if_congr Iff.rfl rfl (if_congr (by omega) rfl rfl)

/-- The outcome of WR_COIL's checks, in order (R130). -/
theorem checkWrCoil_eq (size addr : Nat) (value : Word) : (checkAddr size addr).or (checkCoilValue value) =
    if size ≤ addr then some .illegalDataAddress
    else if value ≠ 0xFF00 ∧ value ≠ 0x0000 then some .illegalDataValue else none := by
  unfold checkAddr checkCoilValue
  by_cases h1 : size ≤ addr <;> simp [h1]

/-! ## Ends of a handler -/

@[simp] theorem guarded_some (id fc : Byte) (c : ExcCode) (e s : State) :
    guarded id fc (some c) e s = takeException id fc c s := rfl

@[simp] theorem guarded_none (id fc : Byte) (e s : State) : guarded id fc none e s = e := rfl

/-- A handler ends in an exception or in its effect. -/
theorem guarded_cases (id fc : Byte) (check : Option ExcCode) (e s : State) :
    (∃ c, check = some c ∧ guarded id fc check e s = takeException id fc c s) ∨
      (check = none ∧ guarded id fc check e s = e) := by
  cases check with
  | none => exact .inr ⟨rfl, rfl⟩
  | some c => exact .inl ⟨c, rfl, rfl⟩

/-- Nothing is emitted for the broadcast id (R102). -/
@[simp] theorem emitted_broadcast (crcEn : Bool) (r : List Byte) : emitted crcEn 0 r = [] := rfl

theorem emitted_unicast (crcEn : Bool) (id : Byte) (r : List Byte) (h : id ≠ 0) :
    emitted crcEn id r = withCrc crcEn r := if_neg h

theorem emitted_length_le (crcEn : Bool) (id : Byte) (r : List Byte) : (emitted crcEn id r).length ≤ r.length + 2 := by
  by_cases h : id = 0
  · subst h; exact Nat.zero_le _
  · rw [emitted_unicast _ _ _ h, withCrc_length]; cases crcEn <;> simp

/-- An exception is the one reply of its three bytes (R100). -/
theorem takeException_eq (id fc : Byte) (c : ExcCode) (s : State) :
    takeException id fc c s = sendReply true id [id, fc ||| Config.excMarker, c.toByte] s := rfl

/-- A handler with two failing checks, as one decision. -/
theorem guarded_two (id fc : Byte) (p q : Prop) [Decidable p] [Decidable q] (c d : ExcCode) (e s : State) :
    guarded id fc (if p then some c else if q then some d else none) e s =
      if p then takeException id fc c s else if q then takeException id fc d s else e := by
  by_cases hp : p <;> by_cases hq : q <;> simp [hp, hq]

/-! ## Each instruction, as one decision -/

/-- A read of bits (R120, R121, R123). -/
theorem readBits_eq (b : Bank Bool) (id fc : Byte) (a q : Word) (s : State) : readBits b id fc a q s =
    if b.size ≤ a.toNat then takeException id fc .illegalDataAddress s
    else if q.toNat = 0 ∨ b.size < a.toNat + q.toNat ∨ 251 < ceil8 q.toNat then
      takeException id fc .illegalDataValue s
    else sendReply false id
      (readReply id fc (ceil8 q.toNat) (packBits (fun j => b.read (a.toNat + j)) q.toNat)) s := by
  rw [readBits, checkRead_eq, guarded_two]

/-- A read of words (R120, R122, R123). -/
theorem readWords_eq (b : Bank Word) (id fc : Byte) (a q : Word) (s : State) : readWords b id fc a q s =
    if b.size ≤ a.toNat then takeException id fc .illegalDataAddress s
    else if q.toNat = 0 ∨ b.size < a.toNat + q.toNat ∨ 251 < 2 * q.toNat then
      takeException id fc .illegalDataValue s
    else sendReply false id
      (readReply id fc (2 * q.toNat) (packWords (fun j => b.read (a.toNat + j)) q.toNat)) s := by
  rw [readWords, checkRead_eq, guarded_two]

/-- WR_COIL (R130). -/
theorem exec_wrCoil (id : Byte) (a v : Word) (s : State) : exec (.wrCoil id a v) s = .next (
    if s.mem.co.size ≤ a.toNat then takeException id fcWrCoil .illegalDataAddress s
    else if v ≠ 0xFF00 ∧ v ≠ 0x0000 then takeException id fcWrCoil .illegalDataValue s
    else sendReply false id (echo id fcWrCoil a v)
      (putMem { s.mem with co := s.mem.co.write a.toNat (decide (v = Config.coilOn)) } s)) := by
  rw [exec, execWrCoil, checkWrCoil_eq, guarded_two]

/-- WR_REG (R131). -/
theorem exec_wrReg (id : Byte) (a v : Word) (s : State) : exec (.wrReg id a v) s = .next (
    if s.mem.hr.size ≤ a.toNat then takeException id fcWrReg .illegalDataAddress s
    else sendReply false id (echo id fcWrReg a v)
      (putMem { s.mem with hr := s.mem.hr.write a.toNat v } s)) := by
  rw [exec, execWrReg, checkAddr]
  by_cases h : s.mem.hr.size ≤ a.toNat <;> simp [h]

/-- WR_COILS (R140 to R142). -/
theorem exec_wrCoils (id : Byte) (a q : Word) (bc : Byte) (d : List Byte) (s : State) :
    exec (.wrCoils id a q bc d) s = .next (
      if s.mem.co.size ≤ a.toNat then takeException id fcWrCoils .illegalDataAddress s
      else if q.toNat = 0 ∨ s.mem.co.size < a.toNat + q.toNat ∨ bc.toNat ≠ ceil8 q.toNat ∨ d.length ≠ bc.toNat then
        takeException id fcWrCoils .illegalDataValue s
      else sendReply false id (echo id fcWrCoils a q)
        (putMem { s.mem with co := s.mem.co.writeRange a.toNat (dataBit d) q.toNat } s)) := by
  rw [exec, execWrCoils, checkMulti_eq, guarded_two]

/-- WR_REGS (R140, R143). -/
theorem exec_wrRegs (id : Byte) (a q : Word) (bc : Byte) (d : List Byte) (s : State) :
    exec (.wrRegs id a q bc d) s = .next (
      if s.mem.hr.size ≤ a.toNat then takeException id fcWrRegs .illegalDataAddress s
      else if q.toNat = 0 ∨ s.mem.hr.size < a.toNat + q.toNat ∨ bc.toNat ≠ 2 * q.toNat ∨ d.length ≠ bc.toNat then
        takeException id fcWrRegs .illegalDataValue s
      else sendReply false id (echo id fcWrRegs a q)
        (putMem { s.mem with hr := s.mem.hr.writeRange a.toNat (dataWord d) q.toNat } s)) := by
  rw [exec, execWrRegs, checkMulti_eq, guarded_two]

/-! ## What an instruction can do -/

/-- Every instruction goes on: with its exception reply, or with a normal reply that starts with its id and code and fits
the reply buffer. `m` is the register file it leaves: canonical if it was, DI and IR and all sizes as before, CO and HR
changed by their own write codes only. -/
theorem exec_cases (i : Instr) (s : State) :
    (∃ c, exec i s = .next (takeException i.id i.fc c s) ∧
      (c = .illegalFunction ↔ ∃ id fc, i = .illegalFunction id fc)) ∨
    (∃ r m, exec i s = .next (sendReply false i.id (i.id :: i.fc :: r) (putMem m s)) ∧
      r ≠ [] ∧ r.length ≤ 252 ∧ (s.mem.wf → m.wf) ∧ m.di = s.mem.di ∧ m.ir = s.mem.ir ∧
      m.co.size = s.mem.co.size ∧ m.hr.size = s.mem.hr.size ∧
      (i.fc ≠ fcWrCoil → i.fc ≠ fcWrCoils → m.co = s.mem.co) ∧
      (i.fc ≠ fcWrReg → i.fc ≠ fcWrRegs → m.hr = s.mem.hr)) := by
  cases i with
  | rdCoils id a q =>
    rw [exec, execRdCoils, readBits_eq]
    split_ifs with h1 h2
    · exact .inl ⟨_, rfl, by simp⟩
    · exact .inl ⟨_, rfl, by simp⟩
    · exact .inr ⟨_, s.mem, rfl, by simp, by simp; omega, fun h => h, rfl, rfl, rfl, rfl, fun _ _ => rfl, fun _ _ => rfl⟩
  | rdDiscrete id a q =>
    rw [exec, execRdDiscrete, readBits_eq]
    split_ifs with h1 h2
    · exact .inl ⟨_, rfl, by simp⟩
    · exact .inl ⟨_, rfl, by simp⟩
    · exact .inr ⟨_, s.mem, rfl, by simp, by simp; omega, fun h => h, rfl, rfl, rfl, rfl, fun _ _ => rfl, fun _ _ => rfl⟩
  | rdHolding id a q =>
    rw [exec, execRdHolding, readWords_eq]
    split_ifs with h1 h2
    · exact .inl ⟨_, rfl, by simp⟩
    · exact .inl ⟨_, rfl, by simp⟩
    · exact .inr ⟨_, s.mem, rfl, by simp, by simp; omega, fun h => h, rfl, rfl, rfl, rfl, fun _ _ => rfl, fun _ _ => rfl⟩
  | rdInput id a q =>
    rw [exec, execRdInput, readWords_eq]
    split_ifs with h1 h2
    · exact .inl ⟨_, rfl, by simp⟩
    · exact .inl ⟨_, rfl, by simp⟩
    · exact .inr ⟨_, s.mem, rfl, by simp, by simp; omega, fun h => h, rfl, rfl, rfl, rfl, fun _ _ => rfl, fun _ _ => rfl⟩
  | wrCoil id a v =>
    rw [exec_wrCoil]
    split_ifs with h1 h2
    · exact .inl ⟨_, rfl, by simp⟩
    · exact .inl ⟨_, rfl, by simp⟩
    · exact .inr ⟨_, _, rfl, by simp, by simp, fun hm => ⟨write_wf _ _ _ hm.1 (by omega), hm.2⟩, rfl, rfl, rfl, rfl,
        fun h => absurd rfl h, fun _ _ => rfl⟩
  | wrReg id a v =>
    rw [exec_wrReg]
    split_ifs with h1
    · exact .inl ⟨_, rfl, by simp⟩
    · exact .inr ⟨_, _, rfl, by simp, by simp, fun hm => ⟨hm.1, hm.2.1, write_wf _ _ _ hm.2.2.1 (by omega), hm.2.2.2⟩,
        rfl, rfl, rfl, rfl, fun _ _ => rfl, fun h => absurd rfl h⟩
  | wrCoils id a q bc d =>
    rw [exec_wrCoils]
    split_ifs with h1 h2
    · exact .inl ⟨_, rfl, by simp⟩
    · exact .inl ⟨_, rfl, by simp⟩
    · exact .inr ⟨_, _, rfl, by simp, by simp, fun hm => ⟨writeRange_wf _ _ _ _ hm.1 (by omega), hm.2⟩,
        rfl, rfl, by simp, rfl, fun _ h => absurd rfl h, fun _ _ => rfl⟩
  | wrRegs id a q bc d =>
    rw [exec_wrRegs]
    split_ifs with h1 h2
    · exact .inl ⟨_, rfl, by simp⟩
    · exact .inl ⟨_, rfl, by simp⟩
    · exact .inr ⟨_, _, rfl, by simp, by simp,
        fun hm => ⟨hm.1, hm.2.1, writeRange_wf _ _ _ _ hm.2.2.1 (by omega), hm.2.2.2⟩,
        rfl, rfl, rfl, by simp, fun _ _ => rfl, fun _ h => absurd rfl h⟩
  | illegalFunction id fc => exact .inl ⟨_, rfl, by simp⟩

end Sys2Proof.Machine
end

