-- ==== Sys2Proof/Laws/PerInstr.lean ====
section
/-! SUPPORT. The family of LAWS.json: `Head`, one lemma per constructor. -/

namespace Sys2Proof.Laws.Head

/-- The body of a request begins with its id and its function code (30_encoding.md R61). -/
def Statement (i : Instr) : Prop := (encode i).take 2 = [i.id, i.fc]

theorem rdCoils (id : Byte) (addr qty : Word) : Statement (.rdCoils id addr qty) := rfl
theorem rdDiscrete (id : Byte) (addr qty : Word) : Statement (.rdDiscrete id addr qty) := rfl
theorem rdHolding (id : Byte) (addr qty : Word) : Statement (.rdHolding id addr qty) := rfl
theorem rdInput (id : Byte) (addr qty : Word) : Statement (.rdInput id addr qty) := rfl
theorem wrCoil (id : Byte) (addr value : Word) : Statement (.wrCoil id addr value) := rfl
theorem wrReg (id : Byte) (addr value : Word) : Statement (.wrReg id addr value) := rfl
theorem wrCoils (id : Byte) (addr qty : Word) (bc : Byte) (data : List Byte) :
    Statement (.wrCoils id addr qty bc data) := rfl
theorem wrRegs (id : Byte) (addr qty : Word) (bc : Byte) (data : List Byte) :
    Statement (.wrRegs id addr qty bc data) := rfl
theorem illegalFunction (id fc : Byte) : Statement (.illegalFunction id fc) := rfl

end Sys2Proof.Laws.Head
end

