-- ==== Sys2Proof/Laws/Replies.lean ====
section
/-! SUPPORT. The reply encoder and the exception, in the terms of the statements (Safety.lean). -/

namespace Sys2Proof.Machine

theorem classify_eq_outcomeRow (raised : Bool) (id : Byte) : classify raised id = outcomeRow raised id := by
  unfold classify outcomeRow
  by_cases h : id = 0#8 <;> cases raised <;> simp [h]

/-- What `sendReply` answers, whatever register file goes with it. -/
theorem answers_sendReply (raised : Bool) (id : Byte) (r : List Byte) (m : Memory) (s : State) :
    Answers s (sendReply raised id r (putMem m s)) raised id r :=
  ⟨rfl, by simp [classify_eq_outcomeRow], rfl, fun h => by simp [sendReply, putMem, h],
    fun h h' => by simpa [sendReply, putMem, h] using fun h2 => absurd h2 h'⟩

/-- A reply and a new register file leave everything else alone. -/
theorem untouched_sendReply (raised : Bool) (id : Byte) (r : List Byte) (m : Memory) (s : State) :
    Untouched s (sendReply raised id r (putMem m s)) := by
  simp [Untouched]

/-- What `takeException` does. -/
theorem raises_takeException (id fc : Byte) (c : ExcCode) (s : State) :
    Raises s (takeException id fc c s) id fc c.toByte :=
  ⟨answers_sendReply true id _ s.mem s, rfl, untouched_sendReply true id _ s.mem s⟩

end Sys2Proof.Machine
end

