-- ==== Sys2Proof/Laws/Step.lean ====
section
/-! SUPPORT. What a transaction and a step can do, said once; invariants are read off these lemmas. -/

namespace Sys2Proof.Machine

@[simp] theorem finish_next (s : State) : finish (.next s) = .next (endTransaction s) := rfl

/-! ## One step, by its move -/

theorem step_unmarked {s : State} (h : s.refused = false) : step s = performMove (nextMove s) (beginStep s) := by
  unfold step stepOnce
  rw [h]

theorem step_marked {s : State} (h : s.refused = true) : step s = .refused .markedRefused := by
  unfold step stepOnce
  rw [h]

theorem transaction_unbound {s : State} (rx late : List Byte) (h : s.deviceId = none) :
    transaction rx late s = .next (markRefused s) := by
  unfold transaction
  rw [h]

theorem transaction_idle {s : State} {dev : Byte} (late : List Byte) (hd : s.deviceId = some dev) :
    transaction [] late s = .next (idle s) := by
  unfold transaction
  rw [hd]

theorem transaction_frame {s : State} {dev : Byte} {rx : List Byte} (late : List Byte) (hd : s.deviceId = some dev)
    (hr : rx ≠ []) : transaction rx late s = finish (processFrame dev (captureFrame rx late s)) := by
  obtain ⟨b, bs, rfl⟩ := List.exists_cons_of_ne_nil hr
  unfold transaction
  rw [hd]

/-- A transacting step processes the frame in its input. -/
theorem step_transacts {s : State} {dev : Byte} {rx late : List Byte} (h : Transacts s dev rx late) :
    step s = finish (processFrame dev (captureFrame rx late (beginStep s))) := by
  obtain ⟨h1, h2, h3, h4⟩ := h
  rw [step_unmarked h1, h2]
  exact transaction_frame late h3 h4

/-! ## What a transaction and a step can do -/

/-- The ways a captured frame can end: a silent drop, an exception, or a normal reply with the register file `m`. `s'` is
the state the frame was checked in, with the datapath loaded; `ok` says which id and function code it had. -/
inductive FrameEnd (ok : Byte → Byte → Prop) (s' : State) : State → Prop where
  | drop (o : TxnOutcome) (ho : o = .dropShort ∨ o = .dropCrc ∨ o = .dropId) : FrameEnd ok s' (dropFrame o s')
  | raise (id fc : Byte) (c : ExcCode) (hok : ok id fc) (hc : c = .illegalFunction ↔ fc ∉ legalCodes) :
      FrameEnd ok s' (takeException id fc c s')
  | answer (id fc : Byte) (r : List Byte) (m : Memory) (hok : ok id fc) (hr : r ≠ []) (hl : r.length ≤ 252)
      (hwf : s'.mem.wf → m.wf) (hdi : m.di = s'.mem.di) (hir : m.ir = s'.mem.ir)
      (hco : m.co.size = s'.mem.co.size) (hhr : m.hr.size = s'.mem.hr.size) :
      FrameEnd ok s' (sendReply false id (id :: fc :: r) (putMem m s'))

/-- A weaker condition on id and code. -/
theorem FrameEnd.mono {ok ok' : Byte → Byte → Prop} {s' t : State} (h : FrameEnd ok s' t)
    (himp : ∀ id fc, ok id fc → ok' id fc) : FrameEnd ok' s' t := by
  cases h with
  | drop o ho => exact .drop o ho
  | raise id fc c hok hc => exact .raise id fc c (himp _ _ hok) hc
  | answer id fc r m hok hr hl hwf hdi hir hco hhr =>
    exact .answer id fc r m (himp _ _ hok) hr hl hwf hdi hir hco hhr

/-- An element of a list's beginning is that element of the list. -/
theorem getElem?_of_take {l : List Byte} {n k : Nat} {b : Byte} (h : (l.take n)[k]? = some b) : l[k]? = some b := by
  rw [List.getElem?_take] at h
  split at h
  · exact h
  · cases h

/-- Dispatching a body ends in one of these ways, and only the body's own id and code decide on the reply. -/
theorem dispatchBody_cases (p : List Byte) (s : State) :
    ∃ u, dispatchBody p s = .next u ∧ FrameEnd (fun id fc => p[0]? = some id ∧ p[1]? = some fc) s u := by
  unfold dispatchBody
  split
  · rename_i i hi
    obtain ⟨rest, hp⟩ := decode_instr_head hi
    rcases exec_cases i s with ⟨c, hc, hi'⟩ | ⟨r, m, hm, h1, h2, h3, h4, h5, h6, h7, -, -⟩
    · exact ⟨_, hc, .raise _ _ _ (by simp [hp]) (hi'.trans (decode_illegal_iff hi))⟩
    · exact ⟨_, hm, .answer _ _ _ _ (by simp [hp]) h1 h2 h3 h4 h5 h6 h7⟩
  · rename_i id fc hi
    obtain ⟨rest, hp⟩ := decode_badLength_head hi
    exact ⟨_, rfl, .raise _ _ _ (by simp [hp]) (by simp [lengthExc, decode_badLength_legal hi])⟩
  · exact ⟨_, rfl, .drop _ (.inl rfl)⟩

/-- A drop decided by the structural checks is short or a CRC mismatch. -/
theorem checkFrame_error {crcEn : Bool} {f : List Byte} {o : TxnOutcome} (h : checkFrame crcEn f = .error o) :
    o = .dropShort ∨ o = .dropCrc := by
  unfold checkFrame at h
  split_ifs at h <;> cases h <;> simp

/-- A body that passed the structural checks is a prefix of its frame. -/
theorem checkFrame_ok {crcEn : Bool} {f p : List Byte} (h : checkFrame crcEn f = .ok p) :
    p = f.take (f.length - if crcEn then 2 else 0) ∧ 2 ≤ p.length := by
  unfold checkFrame at h
  split_ifs at h with h1 h2 h3 h4
  · cases h; simp [h1]; omega
  · cases h; simp [h1]; omega

/-- Processing a frame ends in one of these ways; `s'` differs from `s` in the body and the CRC accumulator at most. -/
theorem processFrame_cases (dev : Byte) (s : State) :
    ∃ p c u, processFrame dev s = .next u ∧
      FrameEnd (fun id fc => s.frame[0]? = some id ∧ s.frame[1]? = some fc ∧ (id = 0x00 ∨ id = dev))
        { s with body := p, crcAcc := c } u ∧
      (p.length ≤ s.frame.length ∨ p = s.body) := by
  unfold processFrame
  split
  · rename_i o ho
    exact ⟨s.body, s.crcAcc, _, rfl, .drop _ ((checkFrame_error ho).imp_right .inl), .inr rfl⟩
  · rename_i p hp
    obtain ⟨hp1, hp2⟩ := checkFrame_ok hp
    have hlen : p.length ≤ s.frame.length := by rw [hp1]; simp
    have hfr : ∀ {k : Nat} {b : Byte}, p[k]? = some b → s.frame[k]? = some b := fun h =>
      getElem?_of_take (hp1 ▸ h)
    split
    · rename_i hid
      obtain ⟨u, hu, he⟩ := dispatchBody_cases p (loadBody p s)
      refine ⟨p, if s.crcEn then crc16 p else s.crcAcc, u, hu, ?_, .inl hlen⟩
      have hacc : ∀ b, p[0]? = some b → b = 0x00 ∨ b = dev := fun b hb => by
        simpa [acceptsId, hb] using hid
      exact .mono (s' := loadBody p s) he fun id fc h => ⟨hfr h.1, hfr h.2, hacc _ h.1⟩
    · exact ⟨p, if s.crcEn then crc16 p else s.crcAcc, _, rfl, .drop _ (.inr (.inr rfl)), .inl hlen⟩

/-- The state the frame of the input `rx` is checked in, with body and accumulator loaded with `p` and `c`. -/
def loaded (s : State) (rx late p : List Byte) (c : Word) : State :=
  { captureFrame rx late (beginStep s) with body := p, crcAcc := c }

/-- What a step can do (R90, R160, R163): refuse an unbound transaction, idle, run one transaction to its end, or
run a host command. -/
inductive StepEnd (s : State) : State → Prop where
  | unbound (rx late : List Byte) (hm : nextMove s = .poll rx late) (hd : s.deviceId = none) :
      StepEnd s (markRefused (beginStep s))
  | idle (late : List Byte) (dev : Byte) (hm : nextMove s = .poll [] late) (hd : s.deviceId = some dev) :
      StepEnd s (idle (beginStep s))
  | frame (rx late : List Byte) (dev : Byte) (p : List Byte) (c : Word) (u : State) (hm : nextMove s = .poll rx late)
      (hd : s.deviceId = some dev) (hr : rx ≠ [])
      (hu : FrameEnd (fun id fc => rx[0]? = some id ∧ rx[1]? = some fc ∧ (id = 0x00 ∨ id = dev))
        (loaded s rx late p c) u) :
      StepEnd s (endTransaction u)
  | host (c : HostCmd) (hm : nextMove s = .host c) : StepEnd s (hostCommand c (beginStep s))

/-- Every unmarked state has a next one, reached in one of these ways. -/
theorem step_cases (s : State) (h : s.refused = false) : ∃ t, step s = .next t ∧ StepEnd s t := by
  rw [step_unmarked h]
  cases hm : nextMove s with
  | host c => exact ⟨_, rfl, .host c hm⟩
  | poll rx late =>
    cases hd : s.deviceId with
    | none => exact ⟨_, transaction_unbound rx late hd, .unbound rx late hm hd⟩
    | some dev =>
      by_cases hr : rx = []
      · subst hr; exact ⟨_, transaction_idle late hd, .idle late dev hm hd⟩
      · rw [performMove, transaction_frame (s := beginStep s) late hd hr]
        obtain ⟨p, c, u, hu, he, -⟩ := processFrame_cases dev (captureFrame rx late (beginStep s))
        rw [hu]
        exact ⟨_, rfl, .frame rx late dev p c u hm hd hr (he.mono fun id fc h =>
          ⟨getElem?_of_take h.1, getElem?_of_take h.2.1, h.2.2⟩)⟩

/-- A step that goes on starts in an unmarked state. -/
theorem step_next_unmarked {s t : State} (h : step s = .next t) : s.refused = false := by
  cases hr : s.refused with
  | false => rfl
  | true => rw [step_marked hr] at h; cases h

/-- Inversion of a step. -/
theorem step_next {s t : State} (h : step s = .next t) : StepEnd s t := by
  obtain ⟨u, hu, he⟩ := step_cases s (step_next_unmarked h)
  rw [h] at hu
  cases hu
  exact he

end Sys2Proof.Machine
end

