-- ==== Sys2Proof/Tests/Slice0.lean ====
section
/-! SUPPORT. Tests. The expected frames, outcomes and values are those of spec/95_test_vectors.md, whose row is named at
each test; the witnesses show that the hypotheses of every statement can be met together. -/

namespace Sys2Proof.Tests

set_option Elab.async false

open Sys2Proof.Machine

/-! ## Small states -/

def bitBank (n : Nat) (ones : List Nat) : Bank Bool := { size := n, cells := ones.map fun i => (i, true) }
def wordBank (n : Nat) (cells : List (Nat × Word)) : Bank Word := { size := n, cells := cells }

/-- The state of section 2.3: device 1, CO ten ones, DI twelve bits, HR 000A 000B 1234 FFFF, IR 0102 8000 00FF. -/
def unit1 : State := { State.reset with
  deviceId := some 0x01
  mem := {
    co := bitBank 10 [0, 1, 2, 3, 4, 5, 6, 7, 8, 9]
    di := bitBank 12 [0, 2, 3, 6, 8, 9, 11]
    hr := wordBank 4 [(0, 0x000A), (1, 0x000B), (2, 0x1234), (3, 0xFFFF)]
    ir := wordBank 3 [(0, 0x0102), (1, 0x8000), (2, 0x00FF)] } }

/-- The state of section 2.6: device 1, CO size 20 and HR size 4, all 0. -/
def unit2 : State := { State.reset with
  deviceId := some 0x01
  mem := { State.reset.mem with co := bitBank 20 [], hr := wordBank 4 [] } }

/-- Large banks: CO size 3000, HR size 200, DI size 3000, IR size 200, all 0 (section 2.4). -/
def large : State := { State.reset with
  deviceId := some 0x01
  mem := { co := bitBank 3000 [], di := bitBank 3000 [], hr := wordBank 200 [], ir := wordBank 200 [] } }

/-- `n` bytes `b`. -/
def fill (n : Nat) (b : Byte) : List Byte := List.replicate n b
theorem fill_length (n : Nat) (b : Byte) : (fill n b).length = n := List.length_replicate
theorem fill_ne_nil (n : Nat) (b : Byte) (h : 0 < n) : fill n b ≠ [] :=
  List.ne_nil_of_length_pos (by rwa [fill_length])
theorem fill_take (n k : Nat) (b : Byte) : (fill n b).take k = fill (min k n) b := List.take_replicate

/-- The next step polls, and the transport yields the frame `f` for it. -/
def rcv (s : State) (f : List Byte) : State := { s with moves := [.poll f []] }

/-- CRC checking off. -/
def noCrc (s : State) : State := { s with crcEn := false }

/-- One move listed. -/
def nextIs (s : State) (m : Move) : State := { s with moves := [m] }

/-- The state a step answers, if it answers one. -/
def after (s : State) : Option State :=
  match step s with
  | .next t => some t
  | .fault _ => none
  | .refused _ => none

/-- What a step shows the world: its classification and the bytes it emits. -/
def seen (s : State) : Option (Option TxnOutcome × List Byte) := (after s).map fun t => (t.outcome, t.tx)

/-- A step that answers a state with a decidable property. -/
theorem step_answers (s : State) (P : State → Prop) [DecidablePred P] (h : (after s).any (fun t => decide (P t)) = true) :
    ∃ t, step s = .next t ∧ P t := by
  unfold after at h
  split at h
  · exact ⟨_, ‹_›, by simpa using h⟩
  · simp at h
  · simp at h

/-- The register file after a step. -/
def memAfter (s : State) : Option Memory := (after s).map State.mem

/-! ## WellFormed: an ill-formed term for each check -/

theorem test_wf_refuses_wrCoils_data_beyond_frame :
    (Instr.wrCoils 1 0 1 1 (fill 250 0)).wf = false := by
  simp [Instr.wf, fill_length]
theorem test_wf_refuses_wrRegs_data_beyond_frame :
    (Instr.wrRegs 1 0 1 1 (fill 250 0)).wf = false := by
  simp [Instr.wf, fill_length]
theorem test_wf_refuses_catch_all_with_a_legal_code : (Instr.illegalFunction 1 0x10).wf = false := by decide
theorem test_wf_accepts_a_full_frame : (Instr.wrRegs 1 0 1 1 (fill 249 0)).wf = true := by
  simp [Instr.wf, fill_length]

/-! ## Decode: words written out from the formats REQ_FIXED and REQ_MULTI -/

theorem test_decode_rdCoils : decode [0x01, 0x01, 0x12, 0x34, 0x00, 0x0A] = .instr (.rdCoils 1 0x1234 10) := by decide
theorem test_decode_rdDiscrete : decode [0x02, 0x02, 0x00, 0x03, 0x01, 0x05] = .instr (.rdDiscrete 2 3 0x0105) := by decide
theorem test_decode_rdHolding : decode [0x01, 0x03, 0xFF, 0xFE, 0x00, 0x02] = .instr (.rdHolding 1 0xFFFE 2) := by decide
theorem test_decode_rdInput : decode [0xF7, 0x04, 0x00, 0x01, 0x00, 0x01] = .instr (.rdInput 0xF7 1 1) := by decide
theorem test_decode_wrCoil : decode [0x01, 0x05, 0x00, 0x02, 0xFF, 0x00] = .instr (.wrCoil 1 2 0xFF00) := by decide
theorem test_decode_wrReg : decode [0x01, 0x06, 0x00, 0x01, 0x12, 0x34] = .instr (.wrReg 1 1 0x1234) := by decide
theorem test_decode_wrCoils : decode [0x01, 0x0F, 0x00, 0x03, 0x00, 0x05, 0x01, 0xFF] =
    .instr (.wrCoils 1 3 5 1 [0xFF]) := by decide
theorem test_decode_wrRegs : decode [0x01, 0x10, 0x00, 0x04, 0x00, 0x01, 0x02, 0xAB, 0xCD] =
    .instr (.wrRegs 1 4 1 2 [0xAB, 0xCD]) := by decide
theorem test_decode_illegal : decode [0x01, 0x83, 0x00, 0x00] = .instr (.illegalFunction 1 0x83) := by decide
/-- V.18 to V.20: bodies of a wrong length. -/
theorem test_decode_wrong_length : decode [0x01, 0x03, 0x00, 0x00, 0x00, 0x01, 0x00] = .badLength 1 0x03 ∧
    decode [0x01, 0x03, 0x00, 0x00, 0x00] = .badLength 1 0x03 ∧
    decode [0x01, 0x10, 0x00, 0x00, 0x00, 0x01] = .badLength 1 0x10 := by decide
theorem test_decode_too_short : decode [0x01] = .tooShort := by decide

/-- Table words carry the function code in bits 7..0 and reach every row. -/
theorem test_decodeTableWord : decodeTableWord 8 0x01 = some (.rdCoils 0 0 0) ∧
    decodeTableWord 8 0x10 = some (.wrRegs 0 0 0 0 []) ∧
    decodeTableWord 40 0x0A00040304 = some (.rdInput 0 0x0304 0x000A) ∧
    decodeTableWord 8 0x2B = some (.illegalFunction 0 0x2B) := by decide

/-! ## CRC-16 (C.1 to C.8) -/

theorem test_crc_reference_values : crc16 [] = 0xFFFF ∧ crc16 [0x00] = 0x40BF ∧ crc16 [0xFF] = 0x00FF ∧
    crc16 [0x01, 0x03, 0x00, 0x00, 0x00, 0x01] = 0x0A84 := by decide +kernel
theorem test_crc_check_value :
    crc16 [0x31, 0x32, 0x33, 0x34, 0x35, 0x36, 0x37, 0x38, 0x39] = 0x4B37 := by decide +kernel
theorem test_crc_on_the_wire : withCrc true [0x01, 0x03, 0x04, 0x00, 0x0A, 0x00, 0x0B] =
    [0x01, 0x03, 0x04, 0x00, 0x0A, 0x00, 0x0B, 0x9B, 0xF6] := by decide +kernel

/-! ## One transaction each -/

/-- R.1 -/
theorem test_rdCoils_packs_low_bit_first : seen (rcv unit1 [0x01, 0x01, 0x00, 0x00, 0x00, 0x0A, 0xBC, 0x0D]) =
    some (some .normal, [0x01, 0x01, 0x02, 0xFF, 0x03, 0xB8, 0x0D]) := by decide +kernel
/-- R.9 -/
theorem test_rdCoils_start_is_size : seen (rcv unit1 [0x01, 0x01, 0x00, 0x0A, 0x00, 0x01, 0xDD, 0xC8]) =
    some (some .exception, [0x01, 0x81, 0x02, 0xC1, 0x91]) := by decide +kernel
/-- R.2 -/
theorem test_rdDiscrete_all : seen (rcv unit1 [0x01, 0x02, 0x00, 0x00, 0x00, 0x0C, 0x78, 0x0F]) =
    some (some .normal, [0x01, 0x02, 0x02, 0x4D, 0x0B, 0xCD, 0x2F]) := by decide +kernel
/-- R.3 -/
theorem test_rdDiscrete_from_three : seen (rcv unit1 [0x01, 0x02, 0x00, 0x03, 0x00, 0x05, 0x48, 0x09]) =
    some (some .normal, [0x01, 0x02, 0x01, 0x09, 0x61, 0x8E]) := by decide +kernel
/-- R.4 -/
theorem test_rdHolding_high_byte_first : seen (rcv unit1 [0x01, 0x03, 0x00, 0x00, 0x00, 0x02, 0xC4, 0x0B]) =
    some (some .normal, [0x01, 0x03, 0x04, 0x00, 0x0A, 0x00, 0x0B, 0x9B, 0xF6]) := by decide +kernel
/-- D.5: no wrap. -/
theorem test_rdHolding_range_does_not_wrap : seen (rcv unit1 [0x01, 0x03, 0x00, 0x00, 0xFF, 0xFF, 0x44, 0x7A]) =
    some (some .exception, [0x01, 0x83, 0x03, 0x01, 0x31]) := by decide +kernel
/-- R.6 -/
theorem test_rdInput_all : seen (rcv unit1 [0x01, 0x04, 0x00, 0x00, 0x00, 0x03, 0xB0, 0x0B]) =
    some (some .normal, [0x01, 0x04, 0x06, 0x01, 0x02, 0x80, 0x00, 0x00, 0xFF, 0x71, 0x02]) := by decide +kernel
/-- D.7 -/
theorem test_rdInput_absent_bank : seen (rcv unit2 [0x01, 0x04, 0x00, 0x00, 0x00, 0x01, 0x31, 0xCA]) =
    some (some .exception, [0x01, 0x84, 0x02, 0xC2, 0xC1]) := by decide +kernel
/-- W1.1 -/
theorem test_wrCoil_sets : memAfter (rcv unit2 [0x01, 0x05, 0x00, 0x02, 0xFF, 0x00, 0x2D, 0xFA]) =
    some { unit2.mem with co := bitBank 20 [2] } := by decide +kernel
/-- W1.4 -/
theorem test_wrCoil_rejects_one : seen (rcv unit2 [0x01, 0x05, 0x00, 0x02, 0x00, 0x01, 0xAD, 0xCA]) =
    some (some .exception, [0x01, 0x85, 0x03, 0x02, 0x91]) := by decide +kernel
/-- W2.1 -/
theorem test_wrReg_writes : memAfter (rcv unit2 [0x01, 0x06, 0x00, 0x01, 0x12, 0x34, 0xD5, 0x7D]) =
    some { unit2.mem with hr := wordBank 4 [(1, 0x1234)] } := by decide +kernel
/-- W2.2: the last element, echoed. -/
theorem test_wrReg_echoes : seen (rcv unit2 [0x01, 0x06, 0x00, 0x03, 0xFF, 0xFF, 0x78, 0x7A]) =
    some (some .normal, [0x01, 0x06, 0x00, 0x03, 0xFF, 0xFF, 0x78, 0x7A]) := by decide +kernel
/-- M.2: the top three bits are ignored. -/
theorem test_wrCoils_ignores_unused_bits : memAfter (rcv unit2 [0x01, 0x0F, 0x00, 0x03, 0x00, 0x05, 0x01, 0xFF, 0x6B, 0x16]) =
    some { unit2.mem with co := bitBank 20 [3, 4, 5, 6, 7] } := by decide +kernel
/-- M.6: a long payload. -/
theorem test_wrCoils_long_payload :
    seen (rcv unit2 [0x01, 0x0F, 0x00, 0x00, 0x00, 0x0A, 0x02, 0xCD, 0x01, 0x00, 0x69, 0xE4]) =
    some (some .exception, [0x01, 0x8F, 0x03, 0x04, 0x31]) := by decide +kernel
/-- M.12 -/
theorem test_wrRegs_ends_at_last : memAfter
    (rcv unit2 [0x01, 0x10, 0x00, 0x01, 0x00, 0x03, 0x06, 0x12, 0x34, 0x56, 0x78, 0x9A, 0xBC, 0xFF, 0x73]) =
    some { unit2.mem with hr := wordBank 4 [(1, 0x1234), (2, 0x5678), (3, 0x9ABC)] } := by decide +kernel
/-- M.15: no partial write. -/
theorem test_wrRegs_no_partial_write : memAfter
    (rcv unit2 [0x01, 0x10, 0x00, 0x03, 0x00, 0x02, 0x04, 0x00, 0x01, 0x00, 0x02, 0x63, 0xBB]) =
    some unit2.mem := by decide +kernel
/-- V.14 -/
theorem test_illegal_function : seen (rcv unit1 [0x01, 0x08, 0x00, 0x00, 0x12, 0x34, 0xED, 0x7C]) =
    some (some .exception, [0x01, 0x88, 0x01, 0x87, 0xC0]) := by decide +kernel
/-- V.16: the marker is ORed. -/
theorem test_illegal_function_marker_is_or : seen (rcv unit1 [0x01, 0x83, 0x00, 0x00, 0x00, 0x01, 0x85, 0xD4]) =
    some (some .exception, [0x01, 0x83, 0x01, 0x80, 0xF0]) := by decide +kernel

/-! ## Frames that reach no instruction -/

/-- V.1, V.3, V.7, V.9 -/
theorem test_idle_and_drops : seen unit1 = some (some .idle, []) ∧
    seen (rcv unit1 [0x01, 0x03, 0x00]) = some (some .dropShort, []) ∧
    seen (rcv unit1 [0x01, 0x03, 0x00, 0x00, 0x00, 0x02, 0x0B, 0xC4]) = some (some .dropCrc, []) ∧
    seen (rcv unit1 [0x02, 0x03, 0x00, 0x00, 0x00, 0x01, 0x84, 0x39]) = some (some .dropId, []) := by decide +kernel
/-- V.4, V.5 -/
theorem test_length_rule : seen (rcv unit1 [0x01, 0x03, 0x40, 0x21]) =
      some (some .exception, [0x01, 0x83, 0x03, 0x01, 0x31]) ∧
    seen (rcv unit1 [0x01, 0x10, 0x01, 0xEC]) = some (some .exception, [0x01, 0x90, 0x03, 0x0C, 0x01]) := by
  decide +kernel
/-- V.22 in parts: the frame is the first 256 of 257 bytes, and zero bytes after a body with its CRC keep the CRC 0. -/
theorem test_frame_is_256_bytes : (captureFrame (fill 257 0x01) [] unit1).frame = fill 256 0x01 ∧
    crc16 [0x01, 0x03, 0x00, 0x00, 0x00, 0x01, 0x84, 0x0A] = 0 ∧ crcByte 0 0x00 = 0 :=
  ⟨fill_take 257 256 0x01, by decide +kernel, by decide +kernel⟩
/-- V.23 to V.26: CRC checking off. -/
theorem test_crc_disabled : seen (rcv (noCrc unit1) [0x01]) = some (some .dropShort, []) ∧
    seen (rcv (noCrc unit1) [0x01, 0x03]) = some (some .exception, [0x01, 0x83, 0x03]) ∧
    seen (rcv (noCrc unit1) [0x01, 0x03, 0x00, 0x00, 0x00, 0x02]) =
      some (some .normal, [0x01, 0x03, 0x04, 0x00, 0x0A, 0x00, 0x0B]) ∧
    seen (rcv (noCrc unit1) [0x01, 0x03, 0x00, 0x00, 0x00, 0x02, 0xC4, 0x0B]) =
      some (some .exception, [0x01, 0x83, 0x03]) := by decide +kernel
/-- B.1 and B.3: a broadcast is executed and nothing is sent. -/
theorem test_broadcast : seen (rcv unit2 [0x00, 0x06, 0x00, 0x00, 0xAB, 0xCD, 0x36, 0xBE]) = some (some .bcastNormal, []) ∧
    memAfter (rcv unit2 [0x00, 0x06, 0x00, 0x00, 0xAB, 0xCD, 0x36, 0xBE]) =
      some { unit2.mem with hr := wordBank 4 [(0, 0xABCD)] } ∧
    seen (rcv unit2 [0x00, 0x05, 0x00, 0x01, 0x01, 0x01, 0x5D, 0x8B]) = some (some .bcastException, []) := by
  decide +kernel
/-- D.8 and D.11: the reply that just fits, and the first that does not. -/
theorem test_capacity : (after (rcv large [0x01, 0x03, 0x00, 0x00, 0x00, 0x7D, 0x85, 0xEB])).map
      (fun t => (t.outcome, t.tx.length)) = some (some .normal, 255) ∧
    seen (rcv large [0x01, 0x01, 0x00, 0x00, 0x07, 0xD9, 0xFF, 0xA0]) =
      some (some .exception, [0x01, 0x81, 0x03, 0x00, 0x51]) := by decide +kernel

/-! ## Host commands, reset and the placed word -/

theorem test_unbound_is_refused : (after State.reset).map State.refused = some true := by decide +kernel
theorem test_bindId_range : (after (nextIs State.reset (.host (.bindId 255)))).map State.deviceId = some (some 0xFF) ∧
    (after (nextIs State.reset (.host (.bindId 0)))).map State.refused = some true := by decide +kernel
theorem test_hostWrite_input_register : memAfter (nextIs unit1 (.host (.writeWord .ir 2 0))) =
    some { unit1.mem with ir := wordBank 3 [(0, 0x0102), (1, 0x8000)] } := by decide +kernel
theorem test_hostRead_beyond_bank : (after (nextIs unit1 (.host (.readBit .di 12)))).map State.refused =
    some true := by decide +kernel
theorem test_registerBank_zero_fills : memAfter (nextIs unit1 (.host (.registerWords .hr 65536))) =
    some { unit1.mem with hr := wordBank 65536 [] } := by decide +kernel
/-- What an earlier step left is no input, and no step leaves any (R36). -/
theorem test_no_input_is_kept : seen { rcv unit1 [] with rx := [0x01, 0x03, 0x00] } = some (some .idle, []) ∧
    (after (nextIs unit1 (.poll [0x01] [0x55]))).map State.rx = some [] ∧
    (after (nextIs unit1 (.poll [] [0x55]))).map State.rx = some [] := by decide +kernel
/-- During a step the bytes beyond the frame and those that arrive meanwhile stand in the input, until the flush. -/
theorem test_capture_leaves_the_rest : (captureFrame ([0x01, 0x03] ++ fill 254 0x00 ++ [0x77]) [0x55] unit1).rx =
    [0x77, 0x55] := by decide +kernel
/-- The first step after reset runs the word placed there. -/
theorem test_withFetchWord_runs_first : seen (State.reset.withFetchWord 8 0x03) = some (some .bcastException, []) ∧
    seen (State.reset.withFetchWord 8 0x2B) = some (some .bcastException, []) := by decide +kernel

/-! ## Witnesses: the hypotheses of every statement, met by a concrete state and operands -/

theorem witness_CrcCheckPassesExactlyOnLowByteFirst :
    2 ≤ [0x01#8, 0x03].length ∧ crc16 [0x01, 0x03] = toWord 0x21 0x40 ∧ crc16 [0x01, 0x03] ≠ toWord 0x40 0x21 := by
  decide +kernel

theorem witness_DecodeOfEncodeIsTheInstruction :
    (Instr.wrCoils 0xFF 0xFFFF 0xFFFF 0xFF (fill 249 0xA5)).wf = true ∧
      (Instr.illegalFunction 0 0xFF).wf = true := ⟨by simp [Instr.wf, fill_length], by decide⟩

theorem witness_BodyOfALegalFunctionIsItsEncoding :
    decode [0x00, 0x10, 0xFF, 0xFF, 0xFF, 0xFF, 0xFF] = .instr (.wrRegs 0 0xFFFF 0xFFFF 0xFF []) ∧
      (Instr.wrRegs 0 0xFFFF 0xFFFF 0xFF []).fc ∈ legalCodes := by decide

theorem witness_EveryOtherCodeRaisesIllegalFunction :
    0x00#8 ∉ legalCodes ∧ 0x07#8 ∉ legalCodes ∧ 0x0E#8 ∉ legalCodes ∧ 0x11#8 ∉ legalCodes ∧ 0xFF#8 ∉ legalCodes := by
  decide

theorem witness_WrongBodyLengthRaisesIllegalDataValue :
    (0x06#8 ∈ [0x01#8, 0x02, 0x03, 0x04, 0x05, 0x06] ∧ [0x01#8, 0x06, 0, 0, 0, 0, 0].length ≠ 6) ∧
    (0x01#8 ∈ [0x01#8, 0x02, 0x03, 0x04, 0x05, 0x06] ∧ [0x01#8, 0x01, 0, 0, 0].length ≠ 6) ∧
    (0x0F#8 ∈ [0x0F#8, 0x10] ∧ [0x01#8, 0x0F, 0, 0, 0, 0].length < 7) := by decide

/-- The largest quantities whose reply fits, and a range that ends at the last element. -/
theorem witness_reads :
    (1 ≤ (2008#16).toNat ∧ (992#16).toNat + (2008#16).toNat ≤ (Memory.co large.mem).size ∧ (2008#16).toNat ≤ 2008) ∧
    (1 ≤ (1#16).toNat ∧ (2999#16).toNat + (1#16).toNat ≤ (Memory.di large.mem).size ∧ (1#16).toNat ≤ 2008) ∧
    (1 ≤ (125#16).toNat ∧ (75#16).toNat + (125#16).toNat ≤ (Memory.hr large.mem).size ∧ (125#16).toNat ≤ 125) ∧
    (1 ≤ (125#16).toNat ∧ (75#16).toNat + (125#16).toNat ≤ (Memory.ir large.mem).size ∧ (125#16).toNat ≤ 125) := by
  decide

/-- Each clause of the traps of the reads at its boundary: the start, a quantity of 0, the end, and the capacity. -/
theorem witness_ReadsTrapOnAddressRangeAndCapacity :
    (3000#16).toNat ≥ large.mem.co.size ∧ (2999#16).toNat < large.mem.co.size ∧ (0#16).toNat = 0 ∧
      (2999#16).toNat + (2#16).toNat - 1 ≥ large.mem.co.size ∧
      ((0#16).toNat < large.mem.co.size ∧ (2009#16).toNat > 2008) ∧
      ((0#16).toNat < large.mem.hr.size ∧ (126#16).toNat > 125) ∧
      (200#16).toNat ≥ large.mem.ir.size ∧ (3000#16).toNat ≥ large.mem.di.size := by decide

theorem witness_ReadsChangeNothingAndAnswerAgain : IsRead (.rdInput 0xFF 0xFFFF 0xFFFF) :=
  ⟨0xFF, 0xFFFF, 0xFFFF, .inr (.inr (.inr rfl))⟩

theorem witness_WrCoilWritesOneCoil :
    (20#16).toNat ≥ unit2.mem.co.size ∧
    ((19#16).toNat < unit2.mem.co.size ∧ 0xFF01#16 ≠ 0xFF00 ∧ 0xFF01#16 ≠ 0x0000) ∧
    (unit2.mem.wf ∧ (19#16).toNat < unit2.mem.co.size ∧ (0xFF00#16 = 0xFF00 ∨ 0xFF00#16 = 0x0000)) ∧
    (0x0000#16 = 0xFF00 ∨ 0x0000#16 = 0x0000) := by decide

theorem witness_WrRegWritesOneRegister :
    (4#16).toNat ≥ unit2.mem.hr.size ∧ unit1.mem.wf ∧ (3#16).toNat < unit1.mem.hr.size := by decide

/-- A range that ends at the last coil, with unused bits in its last byte. -/
theorem witness_WrCoilsWritesTheRange :
    unit2.mem.wf ∧ 1 ≤ (9#16).toNat ∧ (11#16).toNat + (9#16).toNat ≤ unit2.mem.co.size ∧
      (2#8).toNat = ((9#16).toNat + 7) / 8 ∧ [0xFF#8, 0xFF].length = (2#8).toNat := by decide

theorem witness_WrRegsWritesTheRange :
    unit2.mem.wf ∧ 1 ≤ (1#16).toNat ∧ (3#16).toNat + (1#16).toNat ≤ unit2.mem.hr.size ∧
      (2#8).toNat = 2 * (1#16).toNat ∧ [0xAB#8, 0xCD].length = (2#8).toNat := by decide

/-- Each clause of the traps of the multiple writes at its boundary. -/
theorem witness_MultipleWritesTrapAndWriteNothing :
    (20#16).toNat ≥ unit2.mem.co.size ∧ (4#16).toNat ≥ unit2.mem.hr.size ∧
    ((19#16).toNat < unit2.mem.co.size ∧ (0#16).toNat = 0) ∧
    ((19#16).toNat < unit2.mem.co.size ∧ (19#16).toNat + (2#16).toNat - 1 ≥ unit2.mem.co.size) ∧
    ((0#16).toNat < unit2.mem.co.size ∧ (2#8).toNat ≠ ((8#16).toNat + 7) / 8) ∧
    ((0#16).toNat < unit2.mem.hr.size ∧ [0x00#8].length ≠ (2#8).toNat) := by decide

theorem witness_SingleWriteReplyIsTheRequestFrame :
    0x01#8 ≠ 0x00 ∧ unit2.crcEn = true ∧ (19#16).toNat < unit2.mem.co.size ∧
      (0x0000#16 = 0xFF00 ∨ 0x0000#16 = 0x0000) ∧ (3#16).toNat < unit2.mem.hr.size := by decide

theorem witness_SingleWriteThenReadReturnsTheValue :
    unit1.mem.wf ∧ (3#16).toNat < unit1.mem.hr.size ∧ (9#16).toNat < unit1.mem.co.size := by decide

/-- WR_REGS and WR_COILS each fill their bank from an element to the end. -/
theorem witness_MultipleWriteThenReadReturnsTheData :
    unit2.mem.wf ∧ 1 ≤ (1#16).toNat ∧ [0x12#8, 0x34].length = (2#8).toNat ∧
      (3#16).toNat + (1#16).toNat ≤ unit2.mem.hr.size ∧ (2#8).toNat = 2 * (1#16).toNat ∧ (1#16).toNat ≤ 125 ∧
      (11#16).toNat + (9#16).toNat ≤ unit2.mem.co.size ∧ (2#8).toNat = ((9#16).toNat + 7) / 8 ∧
      (9#16).toNat ≤ 2008 := by decide

theorem witness_RepeatedRequestLeavesSameBanks : unit1.mem.wf := by decide

theorem witness_OnlyWriteCodesChangeTheirBank :
    ¬ WritesCoils (.wrRegs 1 0 0 0 []) ∧ ¬ WritesRegs (.wrCoils 1 0 0 0 []) ∧
      WritesCoils (.wrCoil 1 0 0) ∧ WritesRegs (.wrReg 1 0 0) := by
  simp [WritesCoils, WritesRegs, Instr.fc]

/-- Two states with different DI, HR and IR that agree on CO. -/
theorem witness_AnswersDependOnOneBank :
    SameBankFor (.rdCoils 1 0 1) unit1.mem { unit2.mem with co := unit1.mem.co } ∧
      { unit2.mem with co := unit1.mem.co } ≠ unit1.mem ∧ unit2.crcEn = unit1.crcEn := ⟨rfl, by decide, rfl⟩

theorem witness_BroadcastExecutesAsUnicast : 0x01#8 ≠ 0x00 := by decide

theorem witness_ExceptionRepliesCarryTheirCode :
    (∃ t, exec (.wrReg 1 4 0) unit2 = .next t ∧ t.outcome = some .exception) ∧
    (∃ t, exec (.wrReg 0 4 0) unit2 = .next t ∧ t.outcome = some .bcastException) ∧
    (∃ t, exec (.wrReg 1 3 0) unit2 = .next t ∧ t.outcome = some .normal) ∧
    (∃ t, exec (.wrReg 0 3 0) unit2 = .next t ∧ t.outcome = some .bcastNormal) :=
  ⟨⟨_, rfl, by decide⟩, ⟨_, rfl, by decide⟩, ⟨_, rfl, by decide⟩, ⟨_, rfl, by decide⟩⟩

/-- R.4, and the broadcast V.11. -/
theorem witness_StepRunsTheDecodedInstruction :
    (Transacts (rcv unit1 [0x01, 0x03, 0x00, 0x00, 0x00, 0x02, 0xC4, 0x0B]) 0x01 [0x01, 0x03, 0x00, 0x00, 0x00, 0x02, 0xC4, 0x0B] [] ∧
      DeliversBody (rcv unit1 [0x01, 0x03, 0x00, 0x00, 0x00, 0x02, 0xC4, 0x0B]) [0x01, 0x03, 0x00, 0x00, 0x00, 0x02, 0xC4, 0x0B] [0x01, 0x03, 0x00, 0x00, 0x00, 0x02] ∧
      decode [0x01, 0x03, 0x00, 0x00, 0x00, 0x02] = .instr (.rdHolding 1 0 2) ∧
      (Instr.rdHolding 1 0 2).id = 0x01) ∧
    (Transacts (rcv unit1 [0x00, 0x03, 0x00, 0x00, 0x00, 0x01, 0x85, 0xDB]) 0x01 [0x00, 0x03, 0x00, 0x00, 0x00, 0x01, 0x85, 0xDB] [] ∧
      DeliversBody (rcv unit1 [0x00, 0x03, 0x00, 0x00, 0x00, 0x01, 0x85, 0xDB]) [0x00, 0x03, 0x00, 0x00, 0x00, 0x01, 0x85, 0xDB] [0x00, 0x03, 0x00, 0x00, 0x00, 0x01] ∧
      decode [0x00, 0x03, 0x00, 0x00, 0x00, 0x01] = .instr (.rdHolding 0 0 1) ∧
      (Instr.rdHolding 0 0 1).id = 0x00) :=
  ⟨⟨⟨rfl, rfl, rfl, by decide⟩, ⟨by decide, by decide +kernel⟩, by decide, rfl⟩,
    ⟨⟨rfl, rfl, rfl, by decide⟩, ⟨by decide, by decide +kernel⟩, by decide, rfl⟩⟩

/-- V.18, and V.24 with CRC checking off. -/
theorem witness_StepAnswersAWrongLengthByException :
    (Transacts (rcv unit1 [0x01, 0x03, 0x00, 0x00, 0x00, 0x01, 0x00, 0x0A, 0x63]) 0x01 [0x01, 0x03, 0x00, 0x00, 0x00, 0x01, 0x00, 0x0A, 0x63] [] ∧
      DeliversBody (rcv unit1 [0x01, 0x03, 0x00, 0x00, 0x00, 0x01, 0x00, 0x0A, 0x63]) [0x01, 0x03, 0x00, 0x00, 0x00, 0x01, 0x00, 0x0A, 0x63]
        [0x01, 0x03, 0x00, 0x00, 0x00, 0x01, 0x00] ∧
      decode [0x01, 0x03, 0x00, 0x00, 0x00, 0x01, 0x00] = .badLength 0x01 0x03) ∧
    (Transacts (rcv (noCrc unit1) [0x01, 0x03]) 0x01 [0x01, 0x03] [] ∧ DeliversBody (rcv (noCrc unit1) [0x01, 0x03]) [0x01, 0x03] [0x01, 0x03] ∧
      decode [0x01, 0x03] = .badLength 0x01 0x03) :=
  ⟨⟨⟨rfl, rfl, rfl, by decide⟩, ⟨by decide, by decide +kernel⟩, by decide⟩,
    ⟨⟨rfl, rfl, rfl, by decide⟩, ⟨by decide, by decide +kernel⟩, by decide⟩⟩

/-- V.3, V.23, V.7 and V.9. -/
theorem witness_SilentDropsRecordNothing :
    (Transacts (rcv unit1 [0x01, 0x03, 0x00]) 0x01 [0x01, 0x03, 0x00] [] ∧ (frameOf [0x01, 0x03, 0x00]).length < 4) ∧
    (Transacts (rcv (noCrc unit1) [0x01]) 0x01 [0x01] [] ∧ (frameOf [0x01]).length < 2) ∧
    (Transacts (rcv unit1 [0x01, 0x03, 0x00, 0x00, 0x00, 0x02, 0x0B, 0xC4]) 0x01 [0x01, 0x03, 0x00, 0x00, 0x00, 0x02, 0x0B, 0xC4] [] ∧
      frameOf [0x01, 0x03, 0x00, 0x00, 0x00, 0x02, 0x0B, 0xC4] =
        [0x01, 0x03, 0x00, 0x00, 0x00, 0x02] ++ [0x0B, 0xC4] ∧
      crc16 [0x01, 0x03, 0x00, 0x00, 0x00, 0x02] ≠ toWord 0xC4 0x0B) ∧
    (Transacts (rcv unit1 [0x02, 0x03, 0x00, 0x00, 0x00, 0x01, 0x84, 0x39]) 0x01 [0x02, 0x03, 0x00, 0x00, 0x00, 0x01, 0x84, 0x39] [] ∧
      DeliversBody (rcv unit1 [0x02, 0x03, 0x00, 0x00, 0x00, 0x01, 0x84, 0x39]) [0x02, 0x03, 0x00, 0x00, 0x00, 0x01, 0x84, 0x39] [0x02, 0x03, 0x00, 0x00, 0x00, 0x01] ∧
      [0x02#8, 0x03, 0x00, 0x00, 0x00, 0x01].getD 0 0 ≠ 0x00 ∧ [0x02#8, 0x03, 0x00, 0x00, 0x00, 0x01].getD 0 0 ≠ 0x01) :=
  ⟨⟨⟨rfl, rfl, rfl, by decide⟩, by decide⟩, ⟨⟨rfl, rfl, rfl, by decide⟩, by decide⟩,
    ⟨⟨rfl, rfl, rfl, by decide⟩, by decide, by decide +kernel⟩,
    ⟨⟨rfl, rfl, rfl, by decide⟩, ⟨by decide, by decide +kernel⟩, by decide, by decide⟩⟩

theorem witness_CrcDisabledTakesTheWholeFrame :
    (Transacts (rcv (noCrc unit1) [0x01]) 0x01 [0x01] [] ∧ (rcv (noCrc unit1) [0x01]).crcEn = false ∧
      (frameOf [0x01]).length < 2) ∧
    (Transacts (rcv (noCrc unit1) [0x01, 0x41]) 0x01 [0x01, 0x41] [] ∧ 2 ≤ (frameOf [0x01, 0x41]).length ∧
      (frameOf [0x01, 0x41]).getD 0 0 = 0x01) :=
  ⟨⟨⟨rfl, rfl, rfl, by decide⟩, rfl, by decide⟩, ⟨⟨rfl, rfl, rfl, by decide⟩, by decide, by decide⟩⟩

theorem witness_NoInputIsAnIdleStep :
    unit1.refused = false ∧ nextMove (nextIs unit1 (.poll [] [0x55])) = .poll [] [0x55] ∧
      unit1.deviceId = some 0x01 := by decide

/-- A transaction exists: the premise of CapturedFrameEmptiesTheInput, TransactionsChangeOnlyCoilsAndRegisters and
EmissionIsNothingOrOneWholeReply; here it writes and emits (W2.1). -/
theorem witness_transaction :
    Transacts (rcv unit2 [0x01, 0x06, 0x00, 0x01, 0x12, 0x34, 0xD5, 0x7D]) 0x01 [0x01, 0x06, 0x00, 0x01, 0x12, 0x34, 0xD5, 0x7D] [] ∧
    ∃ t, step (rcv unit2 [0x01, 0x06, 0x00, 0x01, 0x12, 0x34, 0xD5, 0x7D]) = .next t ∧ t.mem ≠ unit2.mem ∧ t.tx ≠ [] :=
  ⟨⟨rfl, rfl, rfl, by decide⟩, step_answers _ (fun t => t.mem ≠ unit2.mem ∧ t.tx ≠ []) (by decide +kernel)⟩

theorem witness_OnlyTheFirst256BytesMatter :
    (nextIs unit1 (.poll (fill 256 0x01) [])).moves = .poll (fill 256 0x01) [] :: [] ∧
      (fill 300 0x01).take 256 = (fill 256 0x01).take 256 :=
  ⟨rfl, by simp [fill_take]⟩

theorem witness_BroadcastFramesGetNoReply :
    (rcv unit1 [0x00, 0x2B]).refused = false ∧ nextMove (rcv unit1 [0x00, 0x2B]) = .poll (0x00 :: [0x2B]) [] := by
  decide

/-- V.13, the broadcast V.12, and D.1 with a legal code. -/
theorem witness_ExceptionsChangeNoState :
    (∃ t, step (rcv unit1 [0x01, 0x07, 0x41, 0xE2]) = .next t ∧ t.outcome = some .exception) ∧
    (∃ t, step (rcv unit1 [0x00, 0x2B, 0x0E, 0x01, 0x00, 0x4D, 0xB7]) = .next t ∧ t.outcome = some .bcastException) ∧
    (∃ t, step (rcv unit1 [0x01, 0x03, 0x00, 0x04, 0x00, 0x01, 0xC5, 0xCB]) = .next t ∧ t.outcome = some .exception) :=
  ⟨step_answers _ (fun t => t.outcome = some .exception) (by decide +kernel),
    step_answers _ (fun t => t.outcome = some .bcastException) (by decide +kernel),
    step_answers _ (fun t => t.outcome = some .exception) (by decide +kernel)⟩

/-- The frame of M.19: 124 registers make a frame of 257 bytes. -/
def overlong : List Byte := withCrc true (encode (.wrRegs 1 0 124 248 (fill 248 0x11)))

theorem overlong_length : overlong.length = 257 := by
  simp [overlong, withCrc, encode, head6, fill_length]

theorem witness_OverlongMultipleWriteWritesNothing :
    Transacts (rcv large overlong) 0x01 overlong [] ∧ (fill 248 0x11).length = (248#8).toNat ∧
      overlong = withCrc (rcv large overlong).crcEn (encode (.wrRegs 1 0 124 248 (fill 248 0x11))) ∧
      256 < overlong.length := by
  refine ⟨⟨rfl, rfl, rfl, List.ne_nil_of_length_pos ?_⟩, fill_length _ _, rfl, ?_⟩ <;> simp [overlong_length]

theorem witness_step_answers : (rcv unit1 [0x01]).refused = false ∧
    ∃ t, step (rcv unit1 [0x01]) = .next t := ⟨rfl, _, rfl⟩

theorem witness_UnboundTransactionIsRefused :
    State.reset.refused = false ∧ nextMove State.reset = .poll [] [] ∧
      nextMove (rcv State.reset [0x01, 0x03]) = .poll [0x01, 0x03] [] ∧ State.reset.deviceId = none := by decide

theorem witness_MarkedStatesHaveNoNextState : (markRefused State.reset).refused = true := by decide

theorem witness_PlacedWordIsTheNextRequest : decodeTableWord 8 0x06 = some (.wrReg 0 0 0) := by decide

theorem witness_ConfigurationCommandsSetTheirRegister :
    unit1.refused = false ∧ nextMove (nextIs unit1 (.host (.bindId 255))) = .host (.bindId 255) ∧ 1 ≤ 255 ∧ 255 ≤ 255 ∧
      nextMove (nextIs unit1 (.host (.bindId 1))) = .host (.bindId 1) ∧
      nextMove (nextIs unit1 (.host (.setCrc false))) = .host (.setCrc false) ∧
      nextMove (nextIs unit1 (.host .bindTransport)) = .host .bindTransport := by decide

theorem witness_RegisterBankReplacesAndZeroFills :
    (nextIs unit1 (.host (.registerBits .di 0))).refused = false ∧ 0 ≤ 65536 ∧
      nextMove (nextIs unit1 (.host (.registerBits .di 0))) = .host (.registerBits .di 0) ∧
      nextMove (nextIs unit1 (.host (.registerWords .hr 65536))) = .host (.registerWords .hr 65536) := by decide

theorem witness_HostAccessReadsAndWritesOneElement :
    unit1.refused = false ∧ unit1.mem.wf ∧ 2 < (unit1.mem.bits .di).size ∧ 2 < (unit1.mem.words .ir).size ∧
      nextMove (nextIs unit1 (.host (.readBit .di 2))) = .host (.readBit .di 2) ∧
      nextMove (nextIs unit1 (.host (.writeBit .di 2 false))) = .host (.writeBit .di 2 false) ∧
      nextMove (nextIs unit1 (.host (.readWord .ir 2))) = .host (.readWord .ir 2) ∧
      nextMove (nextIs unit1 (.host (.writeWord .ir 2 0))) = .host (.writeWord .ir 2 0) := by decide

/-- Each clause at its boundary. -/
theorem witness_RefusedCommandsOnlySetTheMark :
    unit1.refused = false ∧ nextMove (nextIs unit1 (.host (.bindId 256))) = .host (.bindId 256) ∧ 256 > 255 ∧
      nextMove (nextIs unit1 (.host (.bindId 0))) = .host (.bindId 0) ∧
      (nextMove (nextIs unit1 (.host (.registerBits .co 65537))) = .host (.registerBits .co 65537) ∧ 65537 > 65536) ∧
      nextMove (nextIs unit1 (.host (.registerWords .ir 65537))) = .host (.registerWords .ir 65537) ∧
      (nextMove (nextIs unit1 (.host (.readBit .co 10))) = .host (.readBit .co 10) ∧ 10 ≥ (unit1.mem.bits .co).size) ∧
      (nextMove (nextIs unit1 (.host (.readWord .hr 4))) = .host (.readWord .hr 4) ∧ 4 ≥ (unit1.mem.words .hr).size) ∧
      (nextMove (nextIs unit1 (.host (.writeBit .di 12 true))) = .host (.writeBit .di 12 true) ∧
        12 ≥ (unit1.mem.bits .di).size) ∧
      (nextMove (nextIs unit1 (.host (.writeWord .ir 3 1))) = .host (.writeWord .ir 3 1) ∧
        3 ≥ (unit1.mem.words .ir).size) := by decide

/-- Each clause at its boundary: the last element of each bank, and ranges that end there. -/
theorem witness_HostAndWireSeeOneRegisterFile :
    unit1.mem.wf ∧ (9#16).toNat < unit1.mem.co.size ∧ (11#16).toNat < unit1.mem.di.size ∧
      (3#16).toNat < unit1.mem.hr.size ∧ (2#16).toNat < unit1.mem.ir.size ∧
      (0x0000#16 = 0xFF00 ∨ 0x0000#16 = 0x0000) ∧
      (1 ≤ (9#16).toNat ∧ [0xFF#8, 0xFF].length = (2#8).toNat ∧ (1#16).toNat + (9#16).toNat ≤ unit1.mem.co.size ∧
        (2#8).toNat = ((9#16).toNat + 7) / 8) ∧
      (1 ≤ (1#16).toNat ∧ [0xAB#8, 0xCD].length = (2#8).toNat ∧ (3#16).toNat + (1#16).toNat ≤ unit1.mem.hr.size ∧
        (2#8).toNat = 2 * (1#16).toNat) := by decide

theorem witness_EveryStepKeepsTheInvariant : Inv unit1 ∧ ∃ t, step unit1 = .next t :=
  ⟨⟨by decide, by decide, by decide, by decide, by decide, rfl⟩, _, rfl⟩

end Sys2Proof.Tests
end

section
/-! The family of the state (10_state.md): what a host command can do, what every step keeps, which bank a request
touches and which one its answer depends on. -/

namespace Sys2Proof.Machine

/-! ## What a host command can do -/

/-- The ways a host command can end (R160): it marks the run refused, sets one configuration register, leaves a register
file that is canonical if the old one was, returns a value, or touches nothing. -/
inductive HostEnd (s : State) : State → Prop where
  | refused : HostEnd s (markRefused s)
  | boundId (id : Byte) (hid : id ≠ Config.broadcastId) : HostEnd s { s with deviceId := some id }
  | crc (en : Bool) : HostEnd s { s with crcEn := en }
  | registers (m : Memory) (hm : s.mem.wf → m.wf) : HostEnd s (putMem m s)
  | value (v : HostValue) : HostEnd s { s with hostValue := some v }
  | transport : HostEnd s s

/-- An id in the range of R28 is not the broadcast id. -/
theorem ofNat_ne_broadcastId {n : Nat} (h : ¬ (n = 0 ∨ n > 255)) : BitVec.ofNat 8 n ≠ Config.broadcastId := by
  intro he
  have hmod : n % 256 = 0 := by simpa using congrArg BitVec.toNat he
  omega

/-- Every host command ends in one of these ways. -/
theorem hostCommand_cases (c : HostCmd) (s : State) : HostEnd s (hostCommand c s) := by
  cases c with
  | bindId id =>
    rw [hostCommand, hostBindId]
    split_ifs with h
    · exact .refused
    · exact .boundId _ (ofNat_ne_broadcastId h)
  | setCrc en => exact .crc en
  | registerBits b n =>
    rw [hostCommand, hostRegisterBits]
    split_ifs with h
    · exact .refused
    · exact .registers _ fun hm => setBits_wf _ _ _ hm (fresh_wf n (Nat.le_of_not_gt h))
  | registerWords b n =>
    rw [hostCommand, hostRegisterWords]
    split_ifs with h
    · exact .refused
    · exact .registers _ fun hm => setWords_wf _ _ _ hm (fresh_wf n (Nat.le_of_not_gt h))
  | readBit b i =>
    rw [hostCommand, hostReadBit]
    split_ifs
    · exact .refused
    · exact .value _
  | readWord b i =>
    rw [hostCommand, hostReadWord]
    split_ifs
    · exact .refused
    · exact .value _
  | writeBit b i v =>
    rw [hostCommand, hostWriteBit]
    split_ifs with h
    · exact .refused
    · exact .registers _ fun hm => setBits_wf _ _ _ hm (write_wf _ i v (bits_wf _ b hm) (Nat.lt_of_not_ge h))
  | writeWord b i v =>
    rw [hostCommand, hostWriteWord]
    split_ifs with h
    · exact .refused
    · exact .registers _ fun hm => setWords_wf _ _ _ hm (write_wf _ i v (words_wf _ b hm) (Nat.lt_of_not_ge h))
  | bindTransport => exact .transport

/-- A host command reads no input. -/
theorem HostEnd.rx_eq {s t : State} (h : HostEnd s t) : t.rx = s.rx := by
  cases h <;> rfl

/-- A host command keeps the invariant (R26, R28). -/
theorem HostEnd.inv {s t : State} (h : HostEnd s t) (hs : Inv s) : Inv t := by
  cases h with
  | refused => exact { hs with }
  | boundId id hid => exact { hs with deviceId := fun he => hid (Option.some.inj he) }
  | crc en => exact { hs with }
  | registers m hm => exact { hs with mem := hm hs.mem }
  | value v => exact { hs with }
  | transport => exact hs

/-! ## The invariant -/

/-- The state a step's move works on is legal. -/
theorem beginStep_inv {s : State} (hs : Inv s) : Inv (beginStep s) := { hs with rx := rfl }

/-- The end of a captured frame keeps the canonical form of the register file. -/
theorem FrameEnd.mem_wf {ok : Byte → Byte → Prop} {s' u : State} (h : FrameEnd ok s' u) (hs : s'.mem.wf) :
    u.mem.wf := by
  cases h with
  | drop o ho => exact hs
  | raise id fc c hok hc => exact hs
  | answer id fc r m hok hr hl hwf => exact hwf hs

/-- No transaction binds a device id. -/
theorem FrameEnd.deviceId_eq {ok : Byte → Byte → Prop} {s' u : State} (h : FrameEnd ok s' u) :
    u.deviceId = s'.deviceId := by
  cases h <;> rfl

/-- The end of a transaction cuts the datapath's free values to their buffers' capacities and discards the input. -/
theorem endTransaction_inv {u : State} (hm : u.mem.wf) (hd : u.deviceId ≠ some Config.broadcastId) :
    Inv (endTransaction u) where
  mem := hm
  deviceId := hd
  frame := List.length_take_le _ _
  body := List.length_take_le _ _
  reply := List.length_take_le _ _
  rx := rfl

/-- Whatever a step does, it keeps the invariant. -/
theorem StepEnd.inv {s t : State} (h : StepEnd s t) (hs : Inv s) : Inv t := by
  cases h with
  | unbound rx late hm hd => exact { beginStep_inv hs with }
  | idle late dev hm hd => exact { beginStep_inv hs with }
  | frame rx late dev p c u hm hd hr hu =>
    exact endTransaction_inv (hu.mem_wf hs.mem) (hu.deviceId_eq ▸ hs.deviceId)
  | host c hm => exact (hostCommand_cases c _).inv (beginStep_inv hs)

/-- Settles O51: the invariant is read off the ways a step can end. -/
theorem everyStepKeepsTheInvariant : Obligations.EveryStepKeepsTheInvariant :=
  fun _ _ hs h => (step_next h).inv hs

/-- A bank never registered is in canonical form (R25). -/
theorem absent_wf {α : Type} [DecidableEq α] [Inhabited α] : (absent : Bank α).wf := fresh_wf 0 (Nat.zero_le _)

/-- Settles O50: absent banks are canonical, no id is bound, and every buffer is empty. -/
theorem resetMeetsTheInvariant : Obligations.ResetMeetsTheInvariant where
  mem := ⟨absent_wf, absent_wf, absent_wf, absent_wf⟩
  deviceId := nofun
  frame := Nat.zero_le _
  body := Nat.zero_le _
  reply := Nat.zero_le _
  rx := rfl

/-- Settles O49, from the reset state's own definition. -/
theorem resetLeavesBanksAbsentAndIdUnbound : Obligations.ResetLeavesBanksAbsentAndIdUnbound :=
  ⟨rfl, rfl, rfl, rfl, rfl, rfl⟩

/-! ## No input is kept (R36) -/

/-- A step begins by clearing the input, so it does not see what stood there. -/
theorem step_of_leftover_rx (s : State) (left : List Byte) : step { s with rx := left } = step s := by
  have hbegin : beginStep { s with rx := left } = beginStep s := rfl
  have hmove : nextMove { s with rx := left } = nextMove s := rfl
  rcases s.refused.eq_false_or_eq_true with hr | hr
  · rw [step_marked hr, step_marked (s := { s with rx := left }) hr]
  · rw [step_unmarked hr, step_unmarked (s := { s with rx := left }) hr, hbegin, hmove]

/-- However a step ends, its input is gone. -/
theorem StepEnd.rx_nil {s t : State} (h : StepEnd s t) : t.rx = [] := by
  cases h with
  | unbound rx late hm hd => rfl
  | idle late dev hm hd => rfl
  | frame rx late dev p c u hm hd hr hu => rfl
  | host c hm => exact (hostCommand_cases c (beginStep s)).rx_eq

/-- Settles O48: the input is cleared when a step begins and empty when it ends. -/
theorem noInputIsKeptAcrossSteps : Obligations.NoInputIsKeptAcrossSteps :=
  ⟨step_of_leftover_rx, fun _ _ h => (step_next h).rx_nil⟩

/-! ## Which bank a request changes (R27, the write half) -/

/-- Settles O22: an exception leaves the register file alone, and a normal reply goes with a register file that differs
from the old one in the bank of its write code only. -/
theorem onlyWriteCodesChangeTheirBank : Obligations.OnlyWriteCodesChangeTheirBank := by
  intro i s
  rcases exec_cases i s with ⟨c, hexec, -⟩ | ⟨r, m, hexec, -, -, -, hdi, hir, hcoSize, hhrSize, hco, hhr⟩
  · obtain ⟨-, -, huntouched⟩ := raises_takeException i.id i.fc c s
    exact ⟨_, hexec, fun _ => rfl, fun _ => rfl, rfl, rfl, rfl, rfl, huntouched⟩
  · exact ⟨_, hexec, fun hw => hco (fun h => hw (.inl h)) (fun h => hw (.inr h)),
      fun hw => hhr (fun h => hw (.inl h)) (fun h => hw (.inr h)), hdi, hir, hcoSize, hhrSize,
      untouched_sendReply _ _ _ _ _⟩

/-! ## Which bank an answer depends on (R27, the read half) -/

/-- Two states hold the same answer: reply, emitted bytes and outcome. -/
def SameAnswer (t t' : State) : Prop := t'.reply = t.reply ∧ t'.tx = t.tx ∧ t'.outcome = t.outcome

/-- The reply encoder's answer depends on the reply and CRC_EN alone (R101). -/
theorem sendReply_sameAnswer (raised : Bool) (id : Byte) {r r' : List Byte} {s s' : State} (hr : r' = r)
    (hcrc : s'.crcEn = s.crcEn) : SameAnswer (sendReply raised id r s) (sendReply raised id r' s') := by
  subst hr
  simp [SameAnswer, hcrc]

/-- Handlers with the same check outcome and the same answer of their effects give the same answer. -/
theorem guarded_sameAnswer (id fc : Byte) {check check' : Option ExcCode} {e e' s s' : State} (hcheck : check' = check)
    (he : SameAnswer e e') (hcrc : s'.crcEn = s.crcEn) :
    SameAnswer (guarded id fc check e s) (guarded id fc check' e' s') := by
  subst hcheck
  cases check' with
  | none => exact he
  | some c => exact sendReply_sameAnswer true id rfl hcrc

theorem readBits_sameAnswer {b b' : Bank Bool} (id fc : Byte) (addr qty : Word) {s s' : State} (hb : b' = b)
    (hcrc : s'.crcEn = s.crcEn) : SameAnswer (readBits b id fc addr qty s) (readBits b' id fc addr qty s') := by
  subst hb
  exact guarded_sameAnswer id fc rfl (sendReply_sameAnswer false id rfl hcrc) hcrc

theorem readWords_sameAnswer {b b' : Bank Word} (id fc : Byte) (addr qty : Word) {s s' : State} (hb : b' = b)
    (hcrc : s'.crcEn = s.crcEn) : SameAnswer (readWords b id fc addr qty s) (readWords b' id fc addr qty s') := by
  subst hb
  exact guarded_sameAnswer id fc rfl (sendReply_sameAnswer false id rfl hcrc) hcrc

/-- Settles O23: a read sees the bank its code names, a write only the size of its bank in its checks, and both reply
from the request and that bank alone. -/
theorem answersDependOnOneBank : Obligations.AnswersDependOnOneBank := by
  intro i s s' hbank hcrc
  cases i with
  | rdCoils id addr qty => exact ⟨_, _, rfl, rfl, readBits_sameAnswer id fcRdCoils addr qty hbank hcrc⟩
  | rdDiscrete id addr qty => exact ⟨_, _, rfl, rfl, readBits_sameAnswer id fcRdDiscrete addr qty hbank hcrc⟩
  | rdHolding id addr qty => exact ⟨_, _, rfl, rfl, readWords_sameAnswer id fcRdHolding addr qty hbank hcrc⟩
  | rdInput id addr qty => exact ⟨_, _, rfl, rfl, readWords_sameAnswer id fcRdInput addr qty hbank hcrc⟩
  | wrCoil id addr value =>
    have hco : s'.mem.co = s.mem.co := hbank
    exact ⟨_, _, rfl, rfl, guarded_sameAnswer id fcWrCoil (by rw [hco]) (sendReply_sameAnswer false id rfl hcrc) hcrc⟩
  | wrReg id addr value =>
    have hhr : s'.mem.hr = s.mem.hr := hbank
    exact ⟨_, _, rfl, rfl, guarded_sameAnswer id fcWrReg (by rw [hhr]) (sendReply_sameAnswer false id rfl hcrc) hcrc⟩
  | wrCoils id addr qty bc data =>
    have hco : s'.mem.co = s.mem.co := hbank
    exact ⟨_, _, rfl, rfl, guarded_sameAnswer id fcWrCoils (by rw [hco]) (sendReply_sameAnswer false id rfl hcrc) hcrc⟩
  | wrRegs id addr qty bc data =>
    have hhr : s'.mem.hr = s.mem.hr := hbank
    exact ⟨_, _, rfl, rfl, guarded_sameAnswer id fcWrRegs (by rw [hhr]) (sendReply_sameAnswer false id rfl hcrc) hcrc⟩
  | illegalFunction id fc => exact ⟨_, _, rfl, rfl, sendReply_sameAnswer true id rfl hcrc⟩

end Sys2Proof.Machine
end

section
/-! The family of the register file (20_memory.md): what a read leaves alone and what a repeated request leaves (R46), and
what registering a bank does (R56). -/

namespace Sys2Proof.Machine

/-! ## Reads (R46) -/

/-- A read carries none of the write codes (R68). -/
theorem IsRead.writes_nothing {i : Instr} (hi : IsRead i) : ¬ WritesCoils i ∧ ¬ WritesRegs i := by
  obtain ⟨id, a, q, rfl | rfl | rfl | rfl⟩ := hi <;> simp [WritesCoils, WritesRegs, Instr.fc]

/-- Register files equal bank by bank agree on the bank a read names. -/
theorem IsRead.sameBankFor {i : Instr} (hi : IsRead i) {m m' : Memory} (hco : m'.co = m.co) (hdi : m'.di = m.di)
    (hhr : m'.hr = m.hr) (hir : m'.ir = m.ir) : SameBankFor i m m' := by
  obtain ⟨id, a, q, rfl | rfl | rfl | rfl⟩ := hi
  · exact hco
  · exact hdi
  · exact hhr
  · exact hir

/-- Equal banks have the same elements. -/
theorem SameElements.of_eq {α : Type} [Inhabited α] {b c : Bank α} (h : c = b) : SameElements b c := by
  subst h
  exact ⟨rfl, fun _ => rfl⟩

/-- Settles O12: a read changes no bank because it carries no write code (O22), so asked again it finds the bank and the
CRC_EN its answer depends on (O23) as they were. -/
theorem readsChangeNothingAndAnswerAgain : Obligations.ReadsChangeNothingAndAnswerAgain := by
  intro i s hi
  obtain ⟨hcoils, hregs⟩ := hi.writes_nothing
  obtain ⟨t, ht, hco, hhr, hdi, hir, -, -, huntouched⟩ := onlyWriteCodesChangeTheirBank i s
  have hco := hco hcoils
  have hhr := hhr hregs
  have hcrc : t.crcEn = s.crcEn := huntouched.2.1
  obtain ⟨t', u, ht', hu, hanswer⟩ := answersDependOnOneBank i s t (hi.sameBankFor hco hdi hhr hir) hcrc
  obtain rfl : t = t' := by simpa [ht] using ht'
  exact ⟨t, u, ht, hu, .of_eq hco, .of_eq hdi, .of_eq hhr, .of_eq hir, huntouched, hanswer⟩

/-! ## Writing the same elements again -/

section
variable {α : Type} [DecidableEq α] [Inhabited α]

theorem writeRange_writeRange (b : Bank α) (a : Nat) (f : Nat → α) (n : Nat) (hb : b.wf) (hn : a + n ≤ b.size) :
    (b.writeRange a f n).writeRange a f n = b.writeRange a f n := by
  have hwf := writeRange_wf b a f n hb hn
  have hn' : a + n ≤ (b.writeRange a f n).size := by rwa [writeRange_size]
  refine bank_ext _ _ (writeRange_wf _ a f n hwf hn') hwf (writeRange_size _ a f n) fun k => ?_
  rw [read_writeRange _ a f n k hwf hn', read_writeRange b a f n k hb hn]
  split_ifs <;> rfl

/-- A single write is a range write of one element. -/
theorem write_write (b : Bank α) (i : Nat) (v : α) (hb : b.wf) (hi : i < b.size) :
    (b.write i v).write i v = b.write i v :=
  writeRange_writeRange b i (fun _ => v) 1 hb hi

end

/-! ## Checks that passed -/

/-- An address that passed its check is inside the bank (R98). -/
theorem lt_of_checkAddr_none {size addr : Nat} (h : checkAddr size addr = none) : addr < size := by
  simpa [checkAddr] using h

/-- A range that passed the checks of a multiple write is inside the bank (R98, R140). -/
theorem range_le_of_checkMulti_none {size addr qty bc want len : Nat} (h : checkMulti size addr qty bc want len = none) :
    addr + qty ≤ size := by
  rw [checkMulti_eq] at h
  split_ifs at h
  omega

/-! ## A request applied twice (R46) -/

/-- A handler whose effect keeps the register file keeps it, whatever its checks say. -/
theorem guarded_mem (id fc : Byte) (check : Option ExcCode) {e s : State} (he : e.mem = s.mem) :
    (guarded id fc check e s).mem = s.mem := by
  rcases guarded_cases id fc check e s with ⟨c, -, h⟩ | ⟨-, h⟩
  · rw [h, takeException_mem]
  · rw [h, he]

theorem readBits_mem (b : Bank Bool) (id fc : Byte) (addr qty : Word) (s : State) :
    (readBits b id fc addr qty s).mem = s.mem :=
  guarded_mem id fc _ (sendReply_mem ..)

theorem readWords_mem (b : Bank Word) (id fc : Byte) (addr qty : Word) (s : State) :
    (readWords b id fc addr qty s).mem = s.mem :=
  guarded_mem id fc _ (sendReply_mem ..)

/-- The shape all write handlers have: checks on the register file, then its update `f` and the reply `r` (R100). -/
def writeHandler (id fc : Byte) (check : Memory → Option ExcCode) (r : List Byte) (f : Memory → Memory) (s : State) :
    State :=
  guarded id fc (check s.mem) (sendReply false id r (putMem (f s.mem) s)) s

/-- A write handler that fails its checks keeps the register file, one that passes them updates it. -/
theorem writeHandler_mem (id fc : Byte) (check : Memory → Option ExcCode) (r : List Byte) (f : Memory → Memory)
    (s : State) :
    (writeHandler id fc check r f s).mem = if check s.mem = none then f s.mem else s.mem := by
  rw [writeHandler]
  cases check s.mem <;> rfl

/-- A request with a write handler leaves the same register file applied twice as applied once, when its checks do not
see its update and its update is idempotent where they pass. -/
theorem exec_twice_mem {i : Instr} {check : Memory → Option ExcCode} {r : List Byte} {f : Memory → Memory} {s : State}
    (hexec : ∀ s, exec i s = .next (writeHandler i.id i.fc check r f s)) (hcheck : check (f s.mem) = check s.mem)
    (hf : check s.mem = none → f (f s.mem) = f s.mem) :
    ∃ t u, exec i s = .next t ∧ exec i t = .next u ∧ u.mem = t.mem := by
  refine ⟨_, _, hexec s, hexec _, ?_⟩
  by_cases h : check s.mem = none
  · simp [writeHandler_mem, h, hcheck, hf h]
  · simp [writeHandler_mem, h]

/-- Settles O21: a read or a catch-all changes no register file; a write's checks depend on the bank's size alone, which
the write keeps, and writing the same elements again changes nothing. -/
theorem repeatedRequestLeavesSameBanks : Obligations.RepeatedRequestLeavesSameBanks := by
  rintro i s ⟨hco, -, hhr, -⟩
  cases i with
  | rdCoils id addr qty => exact ⟨_, _, rfl, rfl, readBits_mem _ id fcRdCoils addr qty _⟩
  | rdDiscrete id addr qty => exact ⟨_, _, rfl, rfl, readBits_mem _ id fcRdDiscrete addr qty _⟩
  | rdHolding id addr qty => exact ⟨_, _, rfl, rfl, readWords_mem _ id fcRdHolding addr qty _⟩
  | rdInput id addr qty => exact ⟨_, _, rfl, rfl, readWords_mem _ id fcRdInput addr qty _⟩
  | wrCoil id addr value =>
    refine exec_twice_mem (check := fun m => (checkAddr m.co.size addr.toNat).or (checkCoilValue value))
      (f := fun m => { m with co := m.co.write addr.toNat (decide (value = Config.coilOn)) })
      (fun _ => rfl) rfl fun hcheck => ?_
    have haddr := lt_of_checkAddr_none (Option.or_eq_none_iff.1 hcheck).1
    simp only [write_write _ _ _ hco haddr]
  | wrReg id addr value =>
    refine exec_twice_mem (check := fun m => checkAddr m.hr.size addr.toNat)
      (f := fun m => { m with hr := m.hr.write addr.toNat value })
      (fun _ => rfl) rfl fun hcheck => ?_
    simp only [write_write _ _ _ hhr (lt_of_checkAddr_none hcheck)]
  | wrCoils id addr qty bc data =>
    refine exec_twice_mem (check := fun m => checkMulti m.co.size addr.toNat qty.toNat bc.toNat (ceil8 qty.toNat) data.length)
      (f := fun m => { m with co := m.co.writeRange addr.toNat (dataBit data) qty.toNat })
      (fun _ => rfl) (by simp) fun hcheck => ?_
    simp only [writeRange_writeRange _ _ _ _ hco (range_le_of_checkMulti_none hcheck)]
  | wrRegs id addr qty bc data =>
    refine exec_twice_mem (check := fun m => checkMulti m.hr.size addr.toNat qty.toNat bc.toNat (2 * qty.toNat) data.length)
      (f := fun m => { m with hr := m.hr.writeRange addr.toNat (dataWord data) qty.toNat })
      (fun _ => rfl) (by simp) fun hcheck => ?_
    simp only [writeRange_writeRange _ _ _ _ hhr (range_le_of_checkMulti_none hcheck)]
  | illegalFunction id fc => exact ⟨_, _, rfl, rfl, rfl⟩

/-! ## Registering a bank (R56) -/

/-- A step whose move is a host command runs it in the state the move works on. -/
theorem step_host {s : State} {c : HostCmd} (hs : s.refused = false) (hm : nextMove s = .host c) :
    step s = .next (hostCommand c (beginStep s)) := by
  rw [step_unmarked hs, hm]
  rfl

/-- Registration within the size limit replaces the bank by a fresh one (R56, R160). -/
theorem hostCommand_registerBits (b : BitBank) {n : Nat} (hn : n ≤ Config.maxBankSize) (s : State) :
    hostCommand (.registerBits b n) s = putMem (s.mem.setBits b (Bank.fresh n)) s :=
  if_neg (Nat.not_lt.2 hn)

theorem hostCommand_registerWords (b : WordBank) {n : Nat} (hn : n ≤ Config.maxBankSize) (s : State) :
    hostCommand (.registerWords b n) s = putMem (s.mem.setWords b (Bank.fresh n)) s :=
  if_neg (Nat.not_lt.2 hn)

/-- Settles O44: the step puts a fresh bank in the place of the named one, and the banks are disjoint. -/
theorem registerBankReplacesAndZeroFills : Obligations.RegisterBankReplacesAndZeroFills := by
  intro s n hs hn
  refine ⟨fun b hm => ?_, fun b hm => ?_⟩
  · rw [step_host hs hm, hostCommand_registerBits b hn]
    exact ⟨_, rfl, congrArg Bank.size (bits_setBits ..), fun i => congrArg (Bank.read · i) (bits_setBits ..),
      fun b' hb' => bits_setBits_of_ne _ _ _ _ hb', fun w => words_setBits .., rfl, rfl, hs, rfl⟩
  · rw [step_host hs hm, hostCommand_registerWords b hn]
    exact ⟨_, rfl, congrArg Bank.size (words_setWords ..), fun i => congrArg (Bank.read · i) (words_setWords ..),
      fun b' hb' => words_setWords_of_ne _ _ _ _ hb', fun w => bits_setWords .., rfl, rfl, hs, rfl⟩

end Sys2Proof.Machine
end

section
/-! The family of the encoding (30_encoding.md): decoder and encoder agree in both directions, and every code outside the
eight decodes to the catch-all, which raises ILLEGAL_FUNCTION. -/

namespace Sys2Proof

/-! ## The decoder, one equation per kind of function code (R68, R69) -/

theorem decode_of_fixedRow {fc : Byte} {mk} (h : fixedRows.lookup fc = some mk) (id : Byte) (rest : List Byte) :
    decode (id :: fc :: rest) = decodeFixed id fc mk rest := by
  simp only [decode, h]

theorem decode_of_multiRow {fc : Byte} {mk} (hfixed : fixedRows.lookup fc = none) (h : multiRows.lookup fc = some mk)
    (id : Byte) (rest : List Byte) : decode (id :: fc :: rest) = decodeMulti id fc mk rest := by
  simp only [decode, hfixed, h]

theorem decode_of_not_legal {fc : Byte} (h : fc ∉ legalCodes) (id : Byte) (rest : List Byte) :
    decode (id :: fc :: rest) = .instr (.illegalFunction id fc) := by
  obtain ⟨hfixed, hmulti⟩ := (lookup_none_iff fc).2 h
  simp only [decode, hfixed, hmulti]

/-! ## The encoder, one equation per kind of function code (R62, R63) -/

theorem encode_of_fixedRow {fc : Byte} {mk} (h : fixedRows.lookup fc = some mk) (id : Byte) (addr arg : Word) :
    encode (mk id addr arg) = head6 id fc addr arg := by
  rcases fixedRows_lookup h with ⟨rfl, rfl⟩ | ⟨rfl, rfl⟩ | ⟨rfl, rfl⟩ | ⟨rfl, rfl⟩ | ⟨rfl, rfl⟩ | ⟨rfl, rfl⟩ <;> rfl

theorem encode_of_multiRow {fc : Byte} {mk} (h : multiRows.lookup fc = some mk) (id : Byte) (addr qty : Word) (bc : Byte)
    (data : List Byte) : encode (mk id addr qty bc data) = head6 id fc addr qty ++ bc :: data := by
  rcases multiRows_lookup h with ⟨rfl, rfl⟩ | ⟨rfl, rfl⟩ <;> rfl

/-! ## Decoding an encoding -/

/-- The REQ_FIXED format read back (R62). -/
theorem decode_head6 {fc : Byte} {mk} (h : fixedRows.lookup fc = some mk) (id : Byte) (addr arg : Word) :
    decode (head6 id fc addr arg) = .instr (mk id addr arg) := by
  rw [head6, decode_of_fixedRow h, decodeFixed, toWord_hi8_lo8, toWord_hi8_lo8]

/-- The REQ_MULTI format read back (R63). -/
theorem decode_head6_append {fc : Byte} {mk} (hfixed : fixedRows.lookup fc = none) (h : multiRows.lookup fc = some mk)
    (id : Byte) (addr qty : Word) (bc : Byte) (data : List Byte) :
    decode (head6 id fc addr qty ++ bc :: data) = .instr (mk id addr qty bc data) := by
  simp only [head6, List.cons_append, List.nil_append, decode_of_multiRow hfixed h, decodeMulti, toWord_hi8_lo8]

/-- Settles O4: each constructor's encoding is the format of its code's row, which the decoder reads back; the catch-all
is well formed only with a code outside the eight. -/
theorem decodeOfEncodeIsTheInstruction : Obligations.DecodeOfEncodeIsTheInstruction := by
  intro i hwf
  cases i with
  | rdCoils id addr qty => exact decode_head6 rfl id addr qty
  | rdDiscrete id addr qty => exact decode_head6 rfl id addr qty
  | rdHolding id addr qty => exact decode_head6 rfl id addr qty
  | rdInput id addr qty => exact decode_head6 rfl id addr qty
  | wrCoil id addr value => exact decode_head6 rfl id addr value
  | wrReg id addr value => exact decode_head6 rfl id addr value
  | wrCoils id addr qty bc data => exact decode_head6_append rfl rfl id addr qty bc data
  | wrRegs id addr qty bc data => exact decode_head6_append rfl rfl id addr qty bc data
  | illegalFunction id fc =>
    have hfc : fc ∉ legalCodes := by simpa [Instr.wf] using hwf
    exact decode_of_not_legal hfc id []

/-! ## Encoding a decoded body -/

/-- A body whose code stands in the map is spelled out by the format of that code's row. -/
theorem encode_of_decode {id fc : Byte} {rest : List Byte} {i : Instr} (h : decode (id :: fc :: rest) = .instr i)
    (hfc : fc ∈ legalCodes) : encode i = id :: fc :: rest := by
  cases hfixed : fixedRows.lookup fc with
  | some mk =>
    rw [decode_of_fixedRow hfixed] at h
    rcases decodeFixed_eq h with ⟨ah, al, xh, xl, rfl, hi⟩ | ⟨-, hbad⟩
    · cases hi
      simp only [encode_of_fixedRow hfixed, head6, hi8_toWord, lo8_toWord]
    · cases hbad
  | none =>
    cases hmulti : multiRows.lookup fc with
    | some mk =>
      rw [decode_of_multiRow hfixed hmulti] at h
      rcases decodeMulti_eq h with ⟨ah, al, qh, ql, bc, data, rfl, hi⟩ | ⟨-, hbad⟩
      · cases hi
        simp only [encode_of_multiRow hmulti, head6, hi8_toWord, lo8_toWord, List.cons_append, List.nil_append]
      · cases hbad
    | none => exact absurd hfc ((lookup_none_iff fc).1 ⟨hfixed, hmulti⟩)

/-- Settles O5: a decoded body begins with its instruction's id and code, so a legal code is the body's own and its row's
format spells out the body. -/
theorem bodyOfALegalFunctionIsItsEncoding : Obligations.BodyOfALegalFunctionIsItsEncoding := by
  intro p i h hfc
  obtain ⟨rest, rfl⟩ := decode_instr_head h
  exact encode_of_decode h hfc

/-! ## Bodies written out, and codes outside the eight -/

/-- Settles O6: the first four bodies are their requests' encodings (O4), the last has a code outside the eight. -/
theorem writtenOutBodiesDecode : Obligations.WrittenOutBodiesDecode :=
  ⟨decodeOfEncodeIsTheInstruction (.rdHolding 0x01 0 2) rfl,
    decodeOfEncodeIsTheInstruction (.wrCoil 0x01 2 0xFF00) rfl,
    decodeOfEncodeIsTheInstruction (.wrCoils 0x01 0 10 2 [0xCD, 0x01]) rfl,
    decodeOfEncodeIsTheInstruction (.wrRegs 0x01 0 2 4 [0x00, 0x0A, 0x00, 0x0B]) rfl,
    decode_of_not_legal (by decide) 0x01 [0x00, 0x00, 0x12, 0x34]⟩

end Sys2Proof

namespace Sys2Proof.Machine

/-- Settles O7: neither table holds the code, and the catch-all's handler takes the exception in every state. -/
theorem everyOtherCodeRaisesIllegalFunction : Obligations.EveryOtherCodeRaisesIllegalFunction := by
  intro id fc rest hfc
  exact ⟨decode_of_not_legal hfc id rest,
    fun s => ⟨takeException id fc .illegalFunction s, rfl, raises_takeException id fc .illegalFunction s⟩⟩

end Sys2Proof.Machine
end

section
/-! The family of the CRC (40_crc.md): the engine against the written-out rule (R80), the residue of a body followed by
its CRC (R83), and the placement of the CRC in the check of a request (R82). -/

namespace Sys2Proof.Machine

/-! ## The shifts of one byte (R80, R81) -/

theorem crcShifts_eq_iterate (n : Nat) (c : Word) : crcShifts n c = crcShift^[n] c := by
  induction n generalizing c with
  | zero => rfl
  | succ n ih => exact ih (crcShift c)

theorem crcShift_of_lsb_clear {c : Word} (h : c.getLsbD 0 = false) : crcShift c = c >>> 1 :=
  if_neg (Bool.eq_false_iff.1 h)

/-- While the bits shifted out are clear, the polynomial never enters. -/
theorem crcShifts_of_low_clear (n : Nat) (c : Word) (h : ∀ i < n, c.getLsbD i = false) : crcShifts n c = c >>> n := by
  induction n generalizing c with
  | zero => simp [crcShifts]
  | succ n ih =>
    have hshifted : ∀ i < n, (c >>> 1).getLsbD i = false := fun i hi => by
      simpa [Nat.add_comm] using h (i + 1) (by omega)
    calc crcShifts n (crcShift c)
      _ = crcShifts n (c >>> 1) := by rw [crcShift_of_lsb_clear (h 0 (by omega))]
      _ = c >>> 1 >>> n := ih _ hshifted
      _ = c >>> (n + 1) := by rw [← BitVec.shiftRight_add, Nat.add_comm]

theorem crc16_concat (bs : List Byte) (b : Byte) : crc16 (bs ++ [b]) = crcByte (crc16 bs) b := by
  simp [crc16_append]

/-- Settles O1: a list's last byte is folded in last, and the engine's 8 iterations are the rule's step, 8 times. -/
theorem crcFoldsEachByteEightShifts : Obligations.CrcFoldsEachByteEightShifts := by
  refine ⟨crc16_nil, fun bs b => ?_⟩
  rw [crc16_concat, crcByte, crcShifts_eq_iterate]
  rfl

/-! ## The residue (R83) -/

/-- Folding in the accumulator's own low byte clears that byte, so 8 iterations only move the high byte down. -/
theorem crcByte_lo8 (c : Word) : crcByte c (lo8 c) = (hi8 c).setWidth 16 := by
  have hlow : ∀ i < 8, (c ^^^ (lo8 c).setWidth 16).getLsbD i = false := fun i hi => by
    have hi16 : i < 16 := by omega
    simp [lo8, hi, hi16]
  rw [crcByte, crcShifts_of_low_clear 8 _ hlow]
  apply BitVec.eq_of_getLsbD_eq
  intro i hi
  by_cases h : i < 8
  · simp [lo8, hi8, h, hi]
  · simp [lo8, hi8, h, BitVec.getLsbD_of_ge c (8 + i) (by omega)]

/-- Folding a byte into an accumulator that holds just that byte leaves 0. -/
theorem crcByte_self (b : Byte) : crcByte (b.setWidth 16) b = 0 := by
  rw [crcByte, BitVec.xor_self, crcShifts_of_low_clear 8 _ (by simp)]
  exact BitVec.zero_ushiftRight

/-- Settles O2: folding in the CRC's low byte leaves its high byte in the accumulator, and that byte then leaves 0. -/
theorem crcOfBodyWithItsCrcIsZero : Obligations.CrcOfBodyWithItsCrcIsZero := by
  intro p
  calc crc16 (p ++ [lo8 (crc16 p), hi8 (crc16 p)])
    _ = crcByte (crcByte (crc16 p) (lo8 (crc16 p))) (hi8 (crc16 p)) := crc16_append p _
    _ = crcByte ((hi8 (crc16 p)).setWidth 16) (hi8 (crc16 p)) := by rw [crcByte_lo8]
    _ = 0 := crcByte_self _

/-! ## The check of a request (R82, R93) -/

/-- The check of a long enough frame, its last two bytes named: they are compared with the CRC of the rest. -/
theorem checkFrame_append (p : List Byte) (x y : Byte) (hp : 2 ≤ p.length) :
    checkFrame true (p ++ [x, y]) = if crc16 p = toWord y x then .ok p else .error .dropCrc := by
  have hlen : ¬ p.length + 2 < 4 := by omega
  simp [checkFrame, hlen]

/-- Settles O3: the check compares the CRC with `toWord y x` and nothing else, and a word is told by its two bytes. -/
theorem crcCheckPassesExactlyOnLowByteFirst : Obligations.CrcCheckPassesExactlyOnLowByteFirst := by
  refine ⟨fun _ => rfl, fun p x y hp => ?_⟩
  rw [checkFrame_append p x y hp]
  refine ⟨?_, fun hne => if_neg hne, ?_⟩
  · simp
  · rw [eq_toWord_iff, and_comm]

end Sys2Proof.Machine
end

section
/-! The family of frame and dispatch (41_frame_dispatch.md): the length rule (R96), broadcast requests (R103), what a
captured frame can end in (R92, R102, R104, R105), what of the input a step sees (R91), and the step of a body that was
let through (R90, R93, R94). -/

namespace Sys2Proof.Machine

/-! ## The length rule (R96) -/

theorem decode_fixed_badLength {fc : Byte} {mk} (h : fixedRows.lookup fc = some mk) (id : Byte) {rest : List Byte}
    (hlen : rest.length ≠ 4) : decode (id :: fc :: rest) = .badLength id fc := by
  rw [decode_of_fixedRow h]
  rcases decodeFixed_eq (l := rest) rfl with ⟨ah, al, xh, xl, rfl, -⟩ | ⟨-, hbad⟩
  · exact absurd rfl hlen
  · exact hbad

theorem decode_multi_badLength {fc : Byte} {mk} (hfixed : fixedRows.lookup fc = none) (h : multiRows.lookup fc = some mk)
    (id : Byte) {rest : List Byte} (hlen : rest.length < 5) : decode (id :: fc :: rest) = .badLength id fc := by
  rw [decode_of_multiRow hfixed h]
  rcases decodeMulti_eq (l := rest) rfl with ⟨ah, al, qh, ql, bc, data, rfl, -⟩ | ⟨-, hbad⟩
  · simp only [List.length_cons] at hlen
    omega
  · exact hbad

/-- The codes of the REQ_FIXED rows are 0x01 to 0x06 (R68). -/
theorem fixedRows_isSome : ∀ fc ∈ [0x01#8, 0x02, 0x03, 0x04, 0x05, 0x06], (fixedRows.lookup fc).isSome := by
  simp only [List.forall_mem_cons]
  decide

/-- The codes of the REQ_MULTI rows are 0x0F and 0x10 (R68). -/
theorem multiRows_isSome :
    ∀ fc ∈ [0x0F#8, 0x10], fixedRows.lookup fc = none ∧ (multiRows.lookup fc).isSome := by
  simp only [List.forall_mem_cons]
  decide

theorem dispatchBody_instr {p : List Byte} {i : Instr} (h : decode p = .instr i) (s : State) :
    dispatchBody p s = exec i s := by
  rw [dispatchBody, h]

theorem dispatchBody_badLength {p : List Byte} {id fc : Byte} (h : decode p = .badLength id fc) (s : State) :
    dispatchBody p s = .next (takeException id fc lengthExc s) := by
  rw [dispatchBody, h]

/-- Settles O8: the code's row finds no operands in a body of that length, and the length rule's exception is all that
happens. -/
theorem wrongBodyLengthRaisesIllegalDataValue : Obligations.WrongBodyLengthRaisesIllegalDataValue := by
  intro id fc rest s h
  have hbad : decode (id :: fc :: rest) = .badLength id fc := by
    rcases h with ⟨hfc, hlen⟩ | ⟨hfc, hlen⟩
    · obtain ⟨mk, hrow⟩ := Option.isSome_iff_exists.1 (fixedRows_isSome fc hfc)
      exact decode_fixed_badLength hrow id fun h4 => hlen (by simp [h4])
    · obtain ⟨hfixed, hmulti⟩ := multiRows_isSome fc hfc
      obtain ⟨mk, hrow⟩ := Option.isSome_iff_exists.1 hmulti
      exact decode_multi_badLength hfixed hrow id (by simp only [List.length_cons] at hlen; omega)
  exact ⟨_, dispatchBody_badLength hbad s, raises_takeException id fc lengthExc s⟩

/-! ## Broadcast and unicast requests (R102, R103) -/

theorem withCrc_ne_nil (crcEn : Bool) {r : List Byte} (hr : r ≠ []) : withCrc crcEn r ≠ [] := by
  cases crcEn <;> simp [withCrc, hr]

theorem classify_unicast (raised : Bool) {id : Byte} (h : id ≠ 0) :
    classify raised id = if raised then .exception else .normal := if_neg h

/-- `t` is what a broadcast request leaves of `s` and `u` what its unicast twin does: one register file and one reply
after the id byte, but output of the unicast one only. -/
def SilentTwin (s t u : State) : Prop :=
  t.mem = u.mem ∧ Untouched s t ∧ t.reply.tail = u.reply.tail ∧ t.tx = [] ∧ u.tx ≠ [] ∧
    (t.outcome = some .bcastNormal ↔ u.outcome = some .normal) ∧
    (t.outcome = some .bcastException ↔ u.outcome = some .exception)

/-- The reply encoder suppresses the output of a broadcast reply and nothing else. -/
theorem sendReply_silentTwin (raised : Bool) {id : Byte} (hid : id ≠ 0) (r : List Byte) (m : Memory) (s : State) :
    SilentTwin s (sendReply raised 0 (0 :: r) (putMem m s)) (sendReply raised id (id :: r) (putMem m s)) := by
  refine ⟨rfl, untouched_sendReply .., rfl, rfl, ?_, ?_, ?_⟩
  · rw [sendReply_tx, emitted_unicast _ _ _ hid]
    exact withCrc_ne_nil _ (List.cons_ne_nil _ _)
  all_goals
    rw [sendReply_outcome, sendReply_outcome, classify_unicast raised hid]
    cases raised <;> decide

/-- A handler whose checks do not look at the id ends alike for both ids. -/
theorem guarded_silentTwin {id : Byte} (hid : id ≠ 0) (fc : Byte) (check : Option ExcCode) (r : List Byte) (m : Memory)
    (s : State) :
    SilentTwin s (guarded 0 fc check (sendReply false 0 (0 :: r) (putMem m s)) s)
      (guarded id fc check (sendReply false id (id :: r) (putMem m s)) s) := by
  cases check with
  | none => exact sendReply_silentTwin false hid r m s
  | some c => exact sendReply_silentTwin true hid _ s.mem s

/-- Settles O24: every handler is a check and an effect that the id does not enter, and the catch-all has no effect. -/
theorem broadcastExecutesAsUnicast : Obligations.BroadcastExecutesAsUnicast := by
  intro i s id hid
  cases i with
  | rdCoils _ a q => exact ⟨_, _, rfl, rfl, guarded_silentTwin hid fcRdCoils _ _ s.mem s⟩
  | rdDiscrete _ a q => exact ⟨_, _, rfl, rfl, guarded_silentTwin hid fcRdDiscrete _ _ s.mem s⟩
  | rdHolding _ a q => exact ⟨_, _, rfl, rfl, guarded_silentTwin hid fcRdHolding _ _ s.mem s⟩
  | rdInput _ a q => exact ⟨_, _, rfl, rfl, guarded_silentTwin hid fcRdInput _ _ s.mem s⟩
  | wrCoil _ a v => exact ⟨_, _, rfl, rfl, guarded_silentTwin hid fcWrCoil _ _ _ s⟩
  | wrReg _ a v => exact ⟨_, _, rfl, rfl, guarded_silentTwin hid fcWrReg _ _ _ s⟩
  | wrCoils _ a q bc d => exact ⟨_, _, rfl, rfl, guarded_silentTwin hid fcWrCoils _ _ _ s⟩
  | wrRegs _ a q bc d => exact ⟨_, _, rfl, rfl, guarded_silentTwin hid fcWrRegs _ _ _ s⟩
  | illegalFunction _ fc => exact ⟨_, _, rfl, rfl, sendReply_silentTwin true hid _ s.mem s⟩

/-! ## Every transaction (R92, R102, R104, R105) -/

/-- A transaction captures a frame and ends in one of the ways of `FrameEnd`. -/
theorem Transacts.step_frameEnd {s : State} {dev : Byte} {rx late : List Byte} (h : Transacts s dev rx late) :
    ∃ p c u, step s = .next (endTransaction u) ∧
      FrameEnd (fun id fc => rx[0]? = some id ∧ rx[1]? = some fc ∧ (id = 0x00 ∨ id = dev))
        (loaded s rx late p c) u := by
  obtain ⟨hunmarked, hmove, hdev, hrx⟩ := h
  obtain ⟨t, hstep, hend⟩ := step_cases s hunmarked
  cases hend with
  | unbound rx' late' hm hd => simp [hdev] at hd
  | idle late' dev' hm hd => simp [hmove, hrx] at hm
  | host c hm => simp [hmove] at hm
  | frame rx' late' dev' p c u hm hd hr hu =>
    cases hmove.symm.trans hm
    cases hdev.symm.trans hd
    exact ⟨p, c, u, hstep, hu⟩

/-- Settles O31: whatever the frame ends in, the end of the transaction discards the input. -/
theorem capturedFrameEmptiesTheInput : Obligations.CapturedFrameEmptiesTheInput := by
  intro s dev rx late h
  obtain ⟨p, c, u, hstep, hu⟩ := h.step_frameEnd
  refine ⟨_, hstep, rfl, ?_⟩
  cases hu <;> rfl

/-- A frame whose only admissible id is the broadcast id emits nothing (R102). -/
theorem FrameEnd.tx_nil_of_broadcast {ok : Byte → Byte → Prop} {s' u : State} (h : FrameEnd ok s' u)
    (hok : ∀ id fc, ok id fc → id = 0x00) : u.tx = [] := by
  cases h with
  | drop o ho => rfl
  | raise id fc c hid => obtain rfl := hok id fc hid; rfl
  | answer id fc r m hid => obtain rfl := hok id fc hid; rfl

/-- Settles O33: a step whose input begins with 0 is refused unbound or ends a frame whose id is the broadcast id. -/
theorem broadcastFramesGetNoReply : Obligations.BroadcastFramesGetNoReply := by
  intro s late rest hunmarked hmove
  obtain ⟨t, hstep, hend⟩ := step_cases s hunmarked
  refine ⟨t, hstep, ?_⟩
  cases hend with
  | unbound rx' late' hm hd => rfl
  | idle late' dev' hm hd => rfl
  | host c hm => simp [hmove] at hm
  | frame rx' late' dev' p c u hm hd hr hu =>
    cases hmove.symm.trans hm
    exact hu.tx_nil_of_broadcast fun id fc h => (Option.some.inj h.1).symm

/-- A reply that is emitted is a unicast one, and its outcome says so (R105). -/
theorem sendReply_outcome_of_tx_ne_nil {raised : Bool} {id : Byte} {r : List Byte} {s : State}
    (h : (sendReply raised id r s).tx ≠ []) :
    (sendReply raised id r s).outcome = some (if raised then .exception else .normal) := by
  have hid : id ≠ 0 := by
    rintro rfl
    exact h rfl
  rw [sendReply_outcome, classify_unicast raised hid]

theorem classify_normal (id : Byte) : classify false id = .normal ∨ classify false id = .bcastNormal := by
  by_cases h : id = Config.broadcastId
  · exact .inr (if_pos h)
  · exact .inl (if_neg h)

/-- Only a normal reply goes with a new register file, which has the old DI, IR and sizes (R105, R159). -/
theorem FrameEnd.changes {ok : Byte → Byte → Prop} {s' u : State} (h : FrameEnd ok s' u) :
    u.deviceId = s'.deviceId ∧ u.crcEn = s'.crcEn ∧ u.refused = s'.refused ∧
      u.mem.di = s'.mem.di ∧ u.mem.ir = s'.mem.ir ∧
      u.mem.co.size = s'.mem.co.size ∧ u.mem.hr.size = s'.mem.hr.size ∧
      (u.mem ≠ s'.mem → u.outcome = some .normal ∨ u.outcome = some .bcastNormal) ∧
      (u.tx ≠ [] → u.outcome = some .normal ∨ u.outcome = some .exception) := by
  cases h with
  | drop o ho => exact ⟨rfl, rfl, rfl, rfl, rfl, rfl, rfl, fun hm => absurd rfl hm, fun htx => absurd rfl htx⟩
  | raise id fc code hok hc =>
    exact ⟨rfl, rfl, rfl, rfl, rfl, rfl, rfl, fun hm => absurd rfl hm,
      fun htx => .inr (sendReply_outcome_of_tx_ne_nil htx)⟩
  | answer id fc r m hok hr hl hwf hdi hir hco hhr =>
    exact ⟨rfl, rfl, rfl, hdi, hir, hco, hhr, fun _ => (classify_normal id).imp (congrArg some) (congrArg some),
      fun htx => .inl (sendReply_outcome_of_tx_ne_nil htx)⟩

/-- Settles O35: neither loading the datapath nor the end of the transaction adds to what the frame's end changes. -/
theorem transactionsChangeOnlyCoilsAndRegisters : Obligations.TransactionsChangeOnlyCoilsAndRegisters := by
  intro s dev rx late h
  obtain ⟨p, c, u, hstep, hu⟩ := h.step_frameEnd
  exact ⟨_, hstep, hu.changes⟩

/-- A frame for the broadcast id or for `dev` emits nothing, or one whole reply that begins with `dev`. -/
theorem emitted_of_accepted (crcEn : Bool) {id dev : Byte} (hid : id = 0x00 ∨ id = dev) (fc : Byte) {r : List Byte}
    (hr : r ≠ []) :
    emitted crcEn id (id :: fc :: r) = [] ∨ ∃ (fc' : Byte) (r' : List Byte), r' ≠ [] ∧
      emitted crcEn id (id :: fc :: r) = withCrc crcEn (dev :: fc' :: r') := by
  by_cases h0 : id = 0x00
  · subst h0; exact .inl rfl
  · obtain rfl := hid.resolve_left h0
    exact .inr ⟨fc, r, hr, emitted_unicast _ _ _ h0⟩

/-- Settles O36: a drop emits nothing, an exception or a normal reply is one reply under the frame's accepted id. -/
theorem emissionIsNothingOrOneWholeReply : Obligations.EmissionIsNothingOrOneWholeReply := by
  intro s dev rx late h
  obtain ⟨p, c, u, hstep, hu⟩ := h.step_frameEnd
  refine ⟨_, hstep, ?_⟩
  cases hu with
  | drop o ho => exact .inl rfl
  | raise id fc code hok hc =>
    obtain ⟨-, -, hid⟩ := hok
    exact emitted_of_accepted s.crcEn hid _ (List.cons_ne_nil _ _)
  | answer id fc r m hok hr =>
    obtain ⟨-, -, hid⟩ := hok
    exact emitted_of_accepted s.crcEn hid fc hr

/-- Settles O39: the ways a step can end cover every unmarked state. -/
theorem everyUnmarkedStateSteps : Obligations.EveryUnmarkedStateSteps := by
  intro s h
  obtain ⟨t, hstep, -⟩ := step_cases s h
  exact ⟨t, hstep⟩

/-! ## What of the input a step sees (R91, R92, R187) -/

/-- A handler whose check and effect do not look at the input left unread ends alike without it. -/
theorem finish_guarded_clearInput (id fc : Byte) (check : Option ExcCode) (r : List Byte) (m : Memory) (s : State) :
    finish (.next (guarded id fc check (sendReply false id r (putMem m (clearInput s))) (clearInput s))) =
      finish (.next (guarded id fc check (sendReply false id r (putMem m s)) s)) := by
  cases check <;> rfl

/-- No handler looks at the input left unread, and the end of the transaction discards it. -/
theorem finish_exec_clearInput (i : Instr) (s : State) : finish (exec i (clearInput s)) = finish (exec i s) := by
  cases i with
  | rdCoils id a q => exact finish_guarded_clearInput id fcRdCoils _ _ s.mem s
  | rdDiscrete id a q => exact finish_guarded_clearInput id fcRdDiscrete _ _ s.mem s
  | rdHolding id a q => exact finish_guarded_clearInput id fcRdHolding _ _ s.mem s
  | rdInput id a q => exact finish_guarded_clearInput id fcRdInput _ _ s.mem s
  | wrCoil id a v => exact finish_guarded_clearInput id fcWrCoil _ _ _ s
  | wrReg id a v => exact finish_guarded_clearInput id fcWrReg _ _ _ s
  | wrCoils id a q bc d => exact finish_guarded_clearInput id fcWrCoils _ _ _ s
  | wrRegs id a q bc d => exact finish_guarded_clearInput id fcWrRegs _ _ _ s
  | illegalFunction id fc => rfl

theorem finish_dispatchBody_clearInput (p : List Byte) (s : State) :
    finish (dispatchBody p (clearInput s)) = finish (dispatchBody p s) := by
  unfold dispatchBody
  split
  · exact finish_exec_clearInput _ s
  · rfl
  · rfl

theorem finish_processFrame_clearInput (dev : Byte) (s : State) :
    finish (processFrame dev (clearInput s)) = finish (processFrame dev s) := by
  unfold processFrame
  rw [clearInput_crcEn, clearInput_frame]
  split
  · rfl
  · split
    · exact finish_dispatchBody_clearInput _ (loadBody _ s)
    · rfl

/-- A transaction sees the bytes of its frame alone. -/
theorem transaction_eq_of_take {rx rx' : List Byte} (late late' : List Byte) (h : rx'.take 256 = rx.take 256)
    (s : State) :
    transaction rx' late' s = transaction rx late s := by
  have hnil : rx' = [] ↔ rx = [] := by
    have := congrArg (· = []) h
    simpa using this
  have hframe : clearInput (captureFrame rx' late' s) = clearInput (captureFrame rx late s) := by
    simp [clearInput, captureFrame, h]
  cases hd : s.deviceId with
  | none => rw [transaction_unbound _ _ hd, transaction_unbound _ _ hd]
  | some dev =>
    by_cases hrx : rx = []
    · rw [hrx, hnil.2 hrx, transaction_idle _ hd, transaction_idle _ hd]
    · rw [transaction_frame late hd hrx, transaction_frame late' hd (mt hnil.1 hrx), ← finish_processFrame_clearInput,
        hframe, finish_processFrame_clearInput]

/-- Settles O32: the polls differ in nothing but bytes their transactions do not see. -/
theorem onlyTheFirst256BytesMatter : Obligations.OnlyTheFirst256BytesMatter := by
  intro s rx late rx' late' ms hmoves htake
  have hmove : nextMove s = .poll rx late := by rw [nextMove, hmoves]
  have hbegin : beginStep { s with moves := .poll rx' late' :: ms } = beginStep s := by
    simp [beginStep, clearOutputs, hmoves]
  rcases s.refused.eq_false_or_eq_true with hr | hr
  · rw [step_marked hr, step_marked (s := { s with moves := .poll rx' late' :: ms }) hr]
  · rw [step_unmarked hr, step_unmarked (s := { s with moves := .poll rx' late' :: ms }) hr, hbegin, hmove]
    exact transaction_eq_of_take late late' htake (beginStep s)

/-- Settles O30: a bound poll without input is the idle transaction. -/
theorem noInputIsAnIdleStep : Obligations.NoInputIsAnIdleStep := by
  intro s dev late hunmarked hmove hdev
  rw [step_unmarked hunmarked, hmove]
  exact transaction_idle (s := beginStep s) late hdev

/-! ## Frames that fail or pass their checks (R93, R94, R95) -/

/-- A frame that fails its structural checks is dropped. -/
theorem step_of_checkFrame_error {s : State} {dev : Byte} {rx late : List Byte} {o : TxnOutcome}
    (h : Transacts s dev rx late) (ho : checkFrame s.crcEn (frameOf rx) = .error o) :
    step s = .next (endTransaction (dropFrame o (captureFrame rx late (beginStep s)))) := by
  have hcheck : checkFrame (captureFrame rx late (beginStep s)).crcEn (captureFrame rx late (beginStep s)).frame =
      .error o := ho
  rw [step_transacts h, processFrame, hcheck, finish_next]

/-- A frame that leaves the body `p` passes the structural checks with it. -/
theorem checkFrame_of_deliversBody {s : State} {rx p : List Byte} (h : DeliversBody s rx p) :
    checkFrame s.crcEn (frameOf rx) = .ok p := by
  obtain ⟨hlen, hframe⟩ := h
  split_ifs at hframe with hcrc
  · rw [hframe, hcrc, checkFrame_append _ _ _ hlen, toWord_hi8_lo8, if_pos rfl]
  · simp [hframe, checkFrame, hcrc, Nat.not_lt.2 hlen]

/-- A delivered body under an accepted id is dispatched. -/
theorem step_of_deliversBody {s : State} {dev : Byte} {rx late p : List Byte} (h : Transacts s dev rx late)
    (hp : DeliversBody s rx p) (hid : p.getD 0 0 = 0x00 ∨ p.getD 0 0 = dev) :
    step s = finish (dispatchBody p (dispatchState s rx late p)) := by
  have hcheck : checkFrame (captureFrame rx late (beginStep s)).crcEn (captureFrame rx late (beginStep s)).frame =
      .ok p := checkFrame_of_deliversBody hp
  have haccepts : acceptsId dev (p.getD 0 0) = true := by simpa [acceptsId] using hid
  rw [step_transacts h, processFrame, hcheck]
  simp only [haccepts, if_true]
  rfl

/-- Settles O29: without a CRC the structural check is the length alone, and the frame is its own body. -/
theorem crcDisabledTakesTheWholeFrame : Obligations.CrcDisabledTakesTheWholeFrame := by
  intro s dev rx late h hcrc
  refine ⟨fun hshort => ?_, fun hlen hid => ?_⟩
  · have hdrop : checkFrame s.crcEn (frameOf rx) = .error .dropShort := by simp [checkFrame, hcrc, hshort]
    exact ⟨_, step_of_checkFrame_error h hdrop, rfl, rfl, by simp [SamePersistent]⟩
  · exact step_of_deliversBody h ⟨hlen, by simp [hcrc]⟩ hid

/-! ## The step of a dispatched body (R90, R96, R97) -/

/-- A delivered body that decodes to an instruction with an accepted id runs it. -/
theorem step_of_decode {s : State} {dev : Byte} {rx late p : List Byte} {i : Instr} (h : Transacts s dev rx late)
    (hp : DeliversBody s rx p) (hi : decode p = .instr i) (hid : i.id = 0x00 ∨ i.id = dev) :
    step s = finish (exec i (dispatchState s rx late p)) := by
  obtain ⟨rest, rfl⟩ := decode_instr_head hi
  rw [step_of_deliversBody h hp hid, dispatchBody_instr hi]

/-- No request takes a move off the list. -/
theorem exec_moves {i : Instr} {s t : State} (h : exec i s = .next t) : t.moves = s.moves := by
  rcases exec_cases i s with ⟨c, hexec, -⟩ | ⟨r, m, hexec, -⟩
  · cases h.symm.trans hexec; rfl
  · cases h.symm.trans hexec; rfl

/-- Settles O26: the body is dispatched to its instruction, and the end of the transaction keeps all but the datapath and
the input. -/
theorem stepRunsTheDecodedInstruction : Obligations.StepRunsTheDecodedInstruction := by
  intro s dev rx late p i h hp hi hid
  have hstep := step_of_decode h hp hi hid
  refine ⟨hstep, fun t ht => ⟨?_, ⟨rfl, rfl, rfl, rfl⟩, rfl, rfl, rfl, exec_moves ht⟩⟩
  rw [hstep, ht, finish_next]

/-- Settles O27: the dispatched body takes the length rule's exception, and the end of the transaction keeps it. -/
theorem stepAnswersAWrongLengthByException : Obligations.StepAnswersAWrongLengthByException := by
  intro s dev rx late p id fc h hp hbad hid
  obtain ⟨rest, rfl⟩ := decode_badLength_head hbad
  have hstep := step_of_deliversBody h hp hid
  rw [dispatchBody_badLength hbad, finish_next] at hstep
  exact ⟨_, hstep, ⟨rfl, rfl, rfl, rfl⟩, congrArg some (classify_eq_outcomeRow true id), rfl⟩

/-! ## A placed request -/

@[simp] theorem wordBytes_length (n w : Nat) : (wordBytes n w).length = n := by
  induction n generalizing w with
  | zero => rfl
  | succ n ih => simp [wordBytes, ih]

/-- A table word's body has an id and a code and fits in a frame with its CRC. -/
theorem tableBody_length (nbits w : Nat) : 2 ≤ (tableBody nbits w).length ∧ (tableBody nbits w).length ≤ 254 := by
  simp only [tableBody, maxBody, Config.maxFrame, List.length_take, List.length_append, List.length_cons,
    wordBytes_length]
  omega

/-- A table word's body carries the broadcast id. -/
theorem tableBody_getD_zero (nbits w : Nat) : (tableBody nbits w).getD 0 0 = 0x00 := rfl

theorem decode_of_decodeTableWord {nbits w : Nat} {i : Instr} (h : decodeTableWord nbits w = some i) :
    decode (tableBody nbits w) = .instr i := by
  unfold decodeTableWord at h
  split at h <;> cases h
  assumption

/-- A frame of at most 256 bytes that is a body with its CRC delivers the body. -/
theorem deliversBody_withCrc (s : State) {p : List Byte} (hmin : 2 ≤ p.length) (hmax : p.length ≤ 254) :
    DeliversBody s (withCrc s.crcEn p) p := by
  have hframe : frameOf (withCrc s.crcEn p) = withCrc s.crcEn p :=
    List.take_of_length_le (by rw [withCrc_length]; split <;> omega)
  refine ⟨hmin, ?_⟩
  rw [hframe, withCrc]
  split_ifs <;> rfl

/-- Settles O42: the placed poll's frame delivers the word's body, whose id is the broadcast id. -/
theorem placedWordIsTheNextRequest : Obligations.PlacedWordIsTheNextRequest := by
  intro s nbits w i h
  have hi := decode_of_decodeTableWord h
  obtain ⟨hmin, hmax⟩ := tableBody_length nbits w
  have hframe : tableFrame s.crcEn nbits w ≠ [] := withCrc_ne_nil _ (List.ne_nil_of_length_pos (by omega))
  have hid : i.id = 0x00 := by
    obtain ⟨rest, hbody⟩ := decode_instr_head hi
    simpa [hbody] using tableBody_getD_zero nbits w
  exact step_of_decode (dev := s.deviceId.getD 0x01) ⟨rfl, rfl, rfl, hframe⟩
    (deliversBody_withCrc (s.withFetchWord nbits w) hmin hmax) hi (.inl hid)

end Sys2Proof.Machine
end

section
/-! The family of the reads (42_read.md): what a read inside its bank answers (R121, R122), where a read traps (R120,
R124), and that no step emits more than a reply buffer holds (R35). -/

namespace Sys2Proof.Machine

/-! ## A read that passes its checks -/

/-- A range inside the bank whose reply fits passes every check of a read (R120, R124). -/
theorem checkRead_of_fits {size addr qty bc : Nat} (hqty : 1 ≤ qty) (hrange : addr + qty ≤ size) (hbc : bc ≤ 251) :
    checkRead size addr qty bc = none := by
  rw [checkRead_eq, if_neg (by omega), if_neg (by omega)]

/-- The capacity of a reply is 2008 packed bits (R124, D12). -/
theorem ceil8_le_251_iff (qty : Nat) : ceil8 qty ≤ 251 ↔ qty ≤ 2008 := by
  rw [ceil8]
  omega

/-- The reply of a read counts its data bytes (R64, R123). -/
theorem answers_readReply (id fc : Byte) {bc : Nat} {d : List Byte} (hd : d.length = bc) (s : State) :
    Answers s (sendReply false id (readReply id fc bc d) s) false id (id :: fc :: BitVec.ofNat 8 d.length :: d) := by
  subst hd
  exact answers_sendReply false id _ s.mem s

/-- A read of bits that fits answers them packed. -/
theorem readBits_of_fits {b : Bank Bool} {addr qty : Word} (hqty : 1 ≤ qty.toNat)
    (hrange : addr.toNat + qty.toNat ≤ b.size) (hcap : ceil8 qty.toNat ≤ 251) (id fc : Byte) (s : State) :
    readBits b id fc addr qty s = sendReply false id
      (readReply id fc (ceil8 qty.toNat) (packBits (fun j => b.read (addr.toNat + j)) qty.toNat)) s := by
  rw [readBits, checkRead_of_fits hqty hrange hcap, guarded_none]

/-- A read of words that fits answers them high byte first. -/
theorem readWords_of_fits {b : Bank Word} {addr qty : Word} (hqty : 1 ≤ qty.toNat)
    (hrange : addr.toNat + qty.toNat ≤ b.size) (hcap : 2 * qty.toNat ≤ 251) (id fc : Byte) (s : State) :
    readWords b id fc addr qty s = sendReply false id
      (readReply id fc (2 * qty.toNat) (packWords (fun j => b.read (addr.toNat + j)) qty.toNat)) s := by
  rw [readWords, checkRead_of_fits hqty hrange hcap, guarded_none]

/-- A REQ_FIXED code whose handler is `readBits` on a bank follows the rule of the bit reads on it. -/
theorem bitReadRule {mk : Byte → Word → Word → Instr} {fc : Byte} {bank : Memory → Bank Bool}
    (hrow : fixedRows.lookup fc = some mk)
    (hexec : ∀ id addr qty s, exec (mk id addr qty) s = .next (readBits (bank s.mem) id fc addr qty s)) :
    BitReadRule mk fc bank := by
  refine ⟨fun id ah al qh ql => decode_of_fixedRow hrow id _, fun s id addr qty hqty hrange hfits => ?_⟩
  have hcap : ceil8 qty.toNat ≤ 251 := (ceil8_le_251_iff _).2 hfits
  have hexec := hexec id addr qty s
  rw [readBits_of_fits hqty hrange hcap] at hexec
  exact ⟨_, _, hexec, packBits_length _ _, (packBits_length _ _).trans_le hcap,
    fun i k hi hk => packBits_getLsbD _ _ i k (by simpa using hi) hk, answers_readReply id fc (packBits_length _ _) s,
    rfl, untouched_sendReply false id _ s.mem s⟩

/-- A REQ_FIXED code whose handler is `readWords` on a bank follows the rule of the word reads on it. -/
theorem wordReadRule {mk : Byte → Word → Word → Instr} {fc : Byte} {bank : Memory → Bank Word}
    (hrow : fixedRows.lookup fc = some mk)
    (hexec : ∀ id addr qty s, exec (mk id addr qty) s = .next (readWords (bank s.mem) id fc addr qty s)) :
    WordReadRule mk fc bank := by
  refine ⟨fun id ah al qh ql => decode_of_fixedRow hrow id _, fun s id addr qty hqty hrange hfits => ?_⟩
  have hcap : 2 * qty.toNat ≤ 251 := by omega
  have hexec := hexec id addr qty s
  rw [readWords_of_fits hqty hrange hcap] at hexec
  exact ⟨_, _, hexec, packWords_length _ _, (packWords_length _ _).trans_le hcap,
    fun j hj => packWords_getD _ _ j hj, answers_readReply id fc (packWords_length _ _) s,
    rfl, untouched_sendReply false id _ s.mem s⟩

/-- Settles O9: both codes stand in the REQ_FIXED table, and both handlers are `readBits` on their bank. -/
theorem bitReadsAnswerPackedBits : Obligations.BitReadsAnswerPackedBits :=
  ⟨bitReadRule rfl fun _ _ _ _ => rfl, bitReadRule rfl fun _ _ _ _ => rfl⟩

/-- Settles O10: both codes stand in the REQ_FIXED table, and both handlers are `readWords` on their bank. -/
theorem wordReadsAnswerBigEndianWords : Obligations.WordReadsAnswerBigEndianWords :=
  ⟨wordReadRule rfl fun _ _ _ _ => rfl, wordReadRule rfl fun _ _ _ _ => rfl⟩

/-! ## Where a request for a range traps -/

/-- A handler that checks its address first, then its quantity, the end of its range and a further condition `bad'`
follows the rule of the traps for every `bad` that implies `bad'`. -/
theorem rangeTraps_of_checks {i : Instr} {size addr qty : Nat} {bad bad' : Prop} [Decidable bad']
    {check : Option ExcCode} {e s : State} (hexec : exec i s = .next (guarded i.id i.fc check e s))
    (hcheck : check = if size ≤ addr then some .illegalDataAddress
      else if qty = 0 ∨ size < addr + qty ∨ bad' then some .illegalDataValue else none)
    (hbad : bad → bad') : RangeTraps i size addr qty bad s := by
  have hraises : ∀ c, check = some c → ∃ t, exec i s = .next t ∧ Raises s t i.id i.fc c.toByte := by
    rintro c rfl
    exact ⟨_, hexec, raises_takeException i.id i.fc c s⟩
  refine ⟨fun haddr => hraises .illegalDataAddress ?_, fun haddr htrap => hraises .illegalDataValue ?_⟩
  · rw [hcheck, if_pos haddr]
  · have hvalue : qty = 0 ∨ size < addr + qty ∨ bad' := by
      rcases htrap with hzero | hend | hb
      · exact .inl hzero
      · exact .inr (.inl (by omega))
      · exact .inr (.inr (hbad hb))
    rw [hcheck, if_neg (Nat.not_le.2 haddr), if_pos hvalue]

/-- Settles O11: every read has the checks of `checkRead`, whose capacity is exceeded by more than 2008 bits or 125
words. -/
theorem readsTrapOnAddressRangeAndCapacity : Obligations.ReadsTrapOnAddressRangeAndCapacity := by
  intro s id addr qty
  have hbits : qty.toNat > 2008 → 251 < ceil8 qty.toNat :=
    (lt_iff_lt_of_le_iff_le (ceil8_le_251_iff _)).2
  have hwords : qty.toNat > 125 → 251 < 2 * qty.toNat := by omega
  exact ⟨rangeTraps_of_checks rfl (checkRead_eq ..) hbits, rangeTraps_of_checks rfl (checkRead_eq ..) hbits,
    rangeTraps_of_checks rfl (checkRead_eq ..) hwords, rangeTraps_of_checks rfl (checkRead_eq ..) hwords⟩

/-! ## The bound on what a step emits -/

/-- A host command emits nothing. -/
theorem HostEnd.tx_eq {s t : State} (h : HostEnd s t) : t.tx = s.tx := by
  cases h <;> rfl

/-- A drop emits nothing, an exception its three bytes, a normal reply at most 254, each reply with its CRC. -/
theorem FrameEnd.tx_length_le {ok : Byte → Byte → Prop} {s' u : State} (h : FrameEnd ok s' u) :
    u.tx.length ≤ 256 := by
  cases h with
  | drop o ho => exact Nat.zero_le _
  | raise id fc c hok hc => exact (emitted_length_le s'.crcEn id _).trans (by simp)
  | answer id fc r m hok hr hl => exact (emitted_length_le s'.crcEn id _).trans (by simpa using hl)

/-- Settles O37: only the end of a captured frame emits anything. -/
theorem emissionFitsTheReplyBuffer : Obligations.EmissionFitsTheReplyBuffer := by
  intro s t h
  cases step_next h with
  | unbound rx late hm hd => exact Nat.zero_le _
  | idle late dev hm hd => exact Nat.zero_le _
  | frame rx late dev p c u hm hd hr hu => exact hu.tx_length_le
  | host c hm =>
    rw [(hostCommand_cases c (beginStep s)).tx_eq]
    exact Nat.zero_le _

end Sys2Proof.Machine
end

section
/-! The family of the single writes (43_write_single.md): where each of them traps and what it writes (R130, R131), that
its reply is its request (R132), and that a read returns what it wrote (R133). -/

namespace Sys2Proof.Machine

/-! ## What a write leaves in the register file -/

/-- A range write of CO inside the bank, the other banks being disjoint from it (R40). -/
theorem wroteCoils_writeRange {m : Memory} (hm : m.wf) {addr n : Nat} (hrange : addr + n ≤ m.co.size) (f : Nat → Bool) :
    WroteCoils m { m with co := m.co.writeRange addr f n } addr n f :=
  ⟨writeRange_size .., fun k => read_writeRange m.co addr f n k hm.1 hrange, rfl, rfl, rfl⟩

/-- A range write of HR inside the bank, the other banks being disjoint from it (R40). -/
theorem wroteRegs_writeRange {m : Memory} (hm : m.wf) {addr n : Nat} (hrange : addr + n ≤ m.hr.size) (f : Nat → Word) :
    WroteRegs m { m with hr := m.hr.writeRange addr f n } addr n f := by
  obtain ⟨-, -, hhr, -⟩ := hm
  exact ⟨writeRange_size .., fun k => read_writeRange m.hr addr f n k hhr hrange, rfl, rfl, rfl⟩

/-! ## WR_COIL, by the outcome of its checks (R130) -/

theorem exec_wrCoil_of_size_le {addr : Word} {s : State} (haddr : s.mem.co.size ≤ addr.toNat) (id : Byte) (value : Word) :
    exec (.wrCoil id addr value) s = .next (takeException id fcWrCoil .illegalDataAddress s) := by
  rw [exec_wrCoil, if_pos haddr]

theorem exec_wrCoil_of_bad_value {addr value : Word} {s : State} (haddr : addr.toNat < s.mem.co.size)
    (hvalue : value ≠ 0xFF00 ∧ value ≠ 0x0000) (id : Byte) :
    exec (.wrCoil id addr value) s = .next (takeException id fcWrCoil .illegalDataValue s) := by
  rw [exec_wrCoil, if_neg (Nat.not_le.2 haddr), if_pos hvalue]

theorem exec_wrCoil_of_checked {addr value : Word} {s : State} (haddr : addr.toNat < s.mem.co.size)
    (hvalue : value = 0xFF00 ∨ value = 0x0000) (id : Byte) :
    exec (.wrCoil id addr value) s = .next (sendReply false id (echo id fcWrCoil addr value)
      (putMem { s.mem with co := s.mem.co.write addr.toNat (decide (value = Config.coilOn)) } s)) := by
  have hgood : ¬ (value ≠ 0xFF00 ∧ value ≠ 0x0000) := by
    rwa [← not_or, not_not]
  rw [exec_wrCoil, if_neg (Nat.not_le.2 haddr), if_neg hgood]

/-- Settles O13: the checks of WR_COIL choose between its two exceptions and a range write of one coil. -/
theorem wrCoilWritesOneCoil : Obligations.WrCoilWritesOneCoil := by
  refine ⟨fun id ah al vh vl => decode_of_fixedRow (mk := .wrCoil) rfl id _, fun s id addr value => ⟨?_, ?_, ?_⟩⟩
  · intro haddr
    exact ⟨_, exec_wrCoil_of_size_le haddr id value, raises_takeException id fcWrCoil .illegalDataAddress s⟩
  · intro haddr hvalue
    exact ⟨_, exec_wrCoil_of_bad_value haddr hvalue id, raises_takeException id fcWrCoil .illegalDataValue s⟩
  · intro hwf haddr hvalue
    exact ⟨_, exec_wrCoil_of_checked haddr hvalue id, answers_sendReply ..,
      wroteCoils_writeRange (n := 1) hwf haddr (fun _ => decide (value = 0xFF00)), untouched_sendReply ..⟩

/-! ## WR_REG, by the outcome of its check (R131) -/

theorem exec_wrReg_of_size_le {addr : Word} {s : State} (haddr : s.mem.hr.size ≤ addr.toNat) (id : Byte) (value : Word) :
    exec (.wrReg id addr value) s = .next (takeException id fcWrReg .illegalDataAddress s) := by
  rw [exec_wrReg, if_pos haddr]

theorem exec_wrReg_of_checked {addr : Word} {s : State} (haddr : addr.toNat < s.mem.hr.size) (id : Byte) (value : Word) :
    exec (.wrReg id addr value) s = .next (sendReply false id (echo id fcWrReg addr value)
      (putMem { s.mem with hr := s.mem.hr.write addr.toNat value } s)) := by
  rw [exec_wrReg, if_neg (Nat.not_le.2 haddr)]

/-- Settles O14: the address check of WR_REG chooses between its exception and a range write of one register. -/
theorem wrRegWritesOneRegister : Obligations.WrRegWritesOneRegister := by
  refine ⟨fun id ah al vh vl => decode_of_fixedRow (mk := .wrReg) rfl id _, fun s id addr value => ⟨?_, ?_⟩⟩
  · intro haddr
    exact ⟨_, exec_wrReg_of_size_le haddr id value, raises_takeException id fcWrReg .illegalDataAddress s⟩
  · intro hwf haddr
    exact ⟨_, exec_wrReg_of_checked haddr id value, answers_sendReply ..,
      wroteRegs_writeRange (n := 1) hwf haddr (fun _ => value), untouched_sendReply ..⟩

/-! ## The reply to a unicast request (R132) -/

/-- With CRC checking on, a unicast reply is emitted with its CRC (R101). -/
theorem sendReply_tx_of_unicast (raised : Bool) {id : Byte} (hid : id ≠ 0x00) (r : List Byte) (m : Memory) {s : State}
    (hcrc : s.crcEn = true) : (sendReply raised id r (putMem m s)).tx = withCrc true r := by
  rw [sendReply_tx, emitted_unicast _ _ _ hid, putMem_crcEn, hcrc]

/-- Settles O18: the echo of a single write has the bytes of its encoding, which go out with their CRC. -/
theorem singleWriteReplyIsTheRequestFrame : Obligations.SingleWriteReplyIsTheRequestFrame := by
  intro s id addr value hid hcrc
  refine ⟨fun haddr hvalue => ?_, fun haddr => ?_⟩
  · exact ⟨_, exec_wrCoil_of_checked haddr hvalue id, rfl, sendReply_tx_of_unicast false hid _ _ hcrc⟩
  · exact ⟨_, exec_wrReg_of_checked haddr id value, rfl, sendReply_tx_of_unicast false hid _ _ hcrc⟩

/-! ## Reading one element back (R133) -/

/-- One bit packs into one byte, the other bits 0 (R121). -/
theorem packBits_one (f : Nat → Bool) : packBits f 1 = [if f 0 then 1 else 0] := by
  simp [packBits, packByte, ceil8]

theorem readBits_one_reply {b : Bank Bool} {addr : Word} (haddr : addr.toNat < b.size) (id fc : Byte) (s : State) :
    (readBits b id fc addr 1 s).reply = [id, fc, 0x01, if b.read addr.toNat then 0x01 else 0x00] := by
  rw [readBits_of_fits (qty := 1) (by decide) haddr (by decide), sendReply_reply]
  exact congrArg (readReply id fc 1) (packBits_one _)

theorem readWords_one_reply {b : Bank Word} {addr : Word} (haddr : addr.toNat < b.size) (id fc : Byte) (s : State) :
    (readWords b id fc addr 1 s).reply = [id, fc, 0x02, hi8 (b.read addr.toNat), lo8 (b.read addr.toNat)] := by
  rw [readWords_of_fits (qty := 1) (by decide) haddr (by decide), sendReply_reply]
  rfl

theorem rdCoils_of_wrCoil {s : State} {addr value : Word} (hwf : s.mem.wf) (haddr : addr.toNat < s.mem.co.size)
    (hvalue : value = 0xFF00 ∨ value = 0x0000) (id id' : Byte) :
    ∃ t u, exec (.wrCoil id addr value) s = .next t ∧ exec (.rdCoils id' addr 1) t = .next u ∧
      u.reply = [id', 0x01, 0x01, if value = 0xFF00 then 0x01 else 0x00] := by
  obtain ⟨-, hrule⟩ := wrCoilWritesOneCoil
  obtain ⟨-, -, hwrites⟩ := hrule s id addr value
  obtain ⟨t, ht, -, ⟨hsize, hread, -⟩, -⟩ := hwrites hwf haddr hvalue
  have helem : t.mem.co.read addr.toNat = decide (value = 0xFF00) := by
    simpa using hread addr.toNat
  refine ⟨t, _, ht, rfl, ?_⟩
  rw [readBits_one_reply (haddr.trans_eq hsize.symm), helem]
  simp

theorem rdHolding_of_wrReg {s : State} {addr : Word} (hwf : s.mem.wf) (haddr : addr.toNat < s.mem.hr.size) (value : Word)
    (id id' : Byte) :
    ∃ t u, exec (.wrReg id addr value) s = .next t ∧ exec (.rdHolding id' addr 1) t = .next u ∧
      u.reply = [id', 0x03, 0x02, hi8 value, lo8 value] := by
  obtain ⟨-, hrule⟩ := wrRegWritesOneRegister
  obtain ⟨-, hwrites⟩ := hrule s id addr value
  obtain ⟨t, ht, -, ⟨hsize, hread, -⟩, -⟩ := hwrites hwf haddr
  have helem : t.mem.hr.read addr.toNat = value := by
    simpa using hread addr.toNat
  refine ⟨t, _, ht, rfl, ?_⟩
  rw [readWords_one_reply (haddr.trans_eq hsize.symm), helem]

/-- Settles O19: the bank has the written element (O13, O14), and a read of one element answers it. -/
theorem singleWriteThenReadReturnsTheValue : Obligations.SingleWriteThenReadReturnsTheValue := by
  intro s id id' addr value hwf
  refine ⟨fun haddr => rdHolding_of_wrReg hwf haddr value id id', fun haddr => ⟨?_, ?_⟩⟩
  · exact rdCoils_of_wrCoil hwf haddr (.inl rfl) id id'
  · exact rdCoils_of_wrCoil hwf haddr (.inr rfl) id id'

end Sys2Proof.Machine
end

section
/-! The family of the multiple writes (44_write_multiple.md): where they trap (R140), what they write (R141 to R143), that
a read of the same range returns it, and that one whose frame is cut off at 256 bytes writes nothing (R144). -/

namespace Sys2Proof.Machine

/-! ## Where they trap (R140) -/

/-- Settles O17: both handlers have the checks of `checkMulti`, which are those of the rule. -/
theorem multipleWritesTrapAndWriteNothing : Obligations.MultipleWritesTrapAndWriteNothing := by
  intro s id addr qty bc data
  exact ⟨rangeTraps_of_checks rfl (checkMulti_eq ..) fun hbad => hbad,
    rangeTraps_of_checks rfl (checkMulti_eq ..) fun hbad => hbad⟩

/-! ## What they write (R141 to R143) -/

/-- A range inside the bank with the byte counts it asks for passes every check of a multiple write. -/
theorem checkMulti_of_fits {size addr qty bc want len : Nat} (hqty : 1 ≤ qty) (hrange : addr + qty ≤ size)
    (hbc : bc = want) (hlen : len = bc) : checkMulti size addr qty bc want len = none := by
  rw [checkMulti_eq, if_neg (by omega), if_neg (by omega)]

theorem exec_wrCoils_of_fits {addr qty : Word} {bc : Byte} {data : List Byte} {s : State} (hqty : 1 ≤ qty.toNat)
    (hrange : addr.toNat + qty.toNat ≤ s.mem.co.size) (hbc : bc.toNat = ceil8 qty.toNat)
    (hlen : data.length = bc.toNat) (id : Byte) :
    exec (.wrCoils id addr qty bc data) s = .next (sendReply false id (echo id fcWrCoils addr qty)
      (putMem { s.mem with co := s.mem.co.writeRange addr.toNat (dataBit data) qty.toNat } s)) := by
  rw [exec, execWrCoils, checkMulti_of_fits hqty hrange hbc hlen, guarded_none]

theorem exec_wrRegs_of_fits {addr qty : Word} {bc : Byte} {data : List Byte} {s : State} (hqty : 1 ≤ qty.toNat)
    (hrange : addr.toNat + qty.toNat ≤ s.mem.hr.size) (hbc : bc.toNat = 2 * qty.toNat)
    (hlen : data.length = bc.toNat) (id : Byte) :
    exec (.wrRegs id addr qty bc data) s = .next (sendReply false id (echo id fcWrRegs addr qty)
      (putMem { s.mem with hr := s.mem.hr.writeRange addr.toNat (dataWord data) qty.toNat } s)) := by
  rw [exec, execWrRegs, checkMulti_of_fits hqty hrange hbc hlen, guarded_none]

/-- Settles O15: past its checks WR_COILS is a range write of CO with the bits of the payload. -/
theorem wrCoilsWritesTheRange : Obligations.WrCoilsWritesTheRange := by
  refine ⟨fun id ah al qh ql bc data => decode_of_multiRow (mk := .wrCoils) rfl rfl id _, ?_⟩
  intro s id addr qty bc data hwf hqty hrange hbc hlen
  exact ⟨_, exec_wrCoils_of_fits hqty hrange hbc hlen id, answers_sendReply ..,
    wroteCoils_writeRange hwf hrange (dataBit data), untouched_sendReply ..⟩

/-- Settles O16: past its checks WR_REGS is a range write of HR with the words of the payload. -/
theorem wrRegsWritesTheRange : Obligations.WrRegsWritesTheRange := by
  refine ⟨fun id ah al qh ql bc data => decode_of_multiRow (mk := .wrRegs) rfl rfl id _, ?_⟩
  intro s id addr qty bc data hwf hqty hrange hbc hlen
  exact ⟨_, exec_wrRegs_of_fits hqty hrange hbc hlen id, answers_sendReply ..,
    wroteRegs_writeRange hwf hrange (dataWord data), untouched_sendReply ..⟩

/-! ## Reading the range back -/

/-- Element `j` of a written range reads as the `j`-th value written. -/
theorem WroteCoils.read_add {m m' : Memory} {addr n : Nat} {f : Nat → Bool} (h : WroteCoils m m' addr n f) {j : Nat}
    (hj : j < n) : m'.co.read (addr + j) = f j := by
  obtain ⟨-, hread, -⟩ := h
  rw [hread, if_pos (by omega), Nat.add_sub_cancel_left]

theorem WroteRegs.read_add {m m' : Memory} {addr n : Nat} {f : Nat → Word} (h : WroteRegs m m' addr n f) {j : Nat}
    (hj : j < n) : m'.hr.read (addr + j) = f j := by
  obtain ⟨-, hread, -⟩ := h
  rw [hread, if_pos (by omega), Nat.add_sub_cancel_left]

/-- Lists of `n` byte pairs are told apart by their pairs. -/
theorem eq_of_pairs {d e : List Byte} {n : Nat} (hd : d.length = 2 * n) (he : e.length = 2 * n)
    (h : ∀ j < n, d.getD (2 * j) 0 = e.getD (2 * j) 0 ∧ d.getD (2 * j + 1) 0 = e.getD (2 * j + 1) 0) : d = e := by
  refine List.ext_getElem (hd.trans he.symm) fun k hkd hke => ?_
  rw [← List.getD_eq_getElem d 0 hkd, ← List.getD_eq_getElem e 0 hke]
  obtain ⟨j, rfl | rfl⟩ := Nat.even_or_odd' k
  · exact (h j (by omega)).1
  · exact (h j (by omega)).2

/-- A payload of the declared length is counted by the declared byte. -/
theorem ofNat_length_eq {data : List Byte} {bc : Byte} (h : data.length = bc.toNat) :
    BitVec.ofNat 8 data.length = bc := by
  rw [h, BitVec.ofNat_toNat, BitVec.setWidth_eq]

theorem rdHolding_of_wrRegs {s : State} {addr qty : Word} {bc : Byte} {data : List Byte} (hwf : s.mem.wf)
    (hqty : 1 ≤ qty.toNat) (hlen : data.length = bc.toNat) (hrange : addr.toNat + qty.toNat ≤ s.mem.hr.size)
    (hbc : bc.toNat = 2 * qty.toNat) (hcap : qty.toNat ≤ 125) (id id' : Byte) :
    ∃ t u, exec (.wrRegs id addr qty bc data) s = .next t ∧ exec (.rdHolding id' addr qty) t = .next u ∧
      u.reply = id' :: 0x03 :: bc :: data := by
  obtain ⟨-, hwrites⟩ := wrRegsWritesTheRange
  obtain ⟨t, ht, -, hwrote, -⟩ := hwrites s id addr qty bc data hwf hqty hrange hbc hlen
  have hrange' : addr.toNat + qty.toNat ≤ t.mem.hr.size := hrange.trans_eq hwrote.1.symm
  obtain ⟨⟨-, hreads⟩, -⟩ := wordReadsAnswerBigEndianWords
  obtain ⟨u, d, hu, hdlen, -, hd, ⟨hreply, -⟩, -⟩ := hreads t id' addr qty hqty hrange' hcap
  have hdata : d = data := eq_of_pairs hdlen (hlen.trans hbc) fun j hj => by
    obtain ⟨hhi, hlo⟩ := hd j hj
    rw [hhi, hlo, hwrote.read_add hj, hi8_toWord, lo8_toWord]
    exact ⟨rfl, rfl⟩
  exact ⟨t, u, ht, hu, by rw [hreply, hdata, ofNat_length_eq hlen]⟩

theorem rdCoils_of_wrCoils {s : State} {addr qty : Word} {bc : Byte} {data : List Byte} (hwf : s.mem.wf)
    (hqty : 1 ≤ qty.toNat) (hlen : data.length = bc.toNat) (hrange : addr.toNat + qty.toNat ≤ s.mem.co.size)
    (hbc : bc.toNat = (qty.toNat + 7) / 8) (hcap : qty.toNat ≤ 2008) (id id' : Byte) :
    ∃ t u d, exec (.wrCoils id addr qty bc data) s = .next t ∧ exec (.rdCoils id' addr qty) t = .next u ∧
      u.reply = id' :: 0x01 :: bc :: d ∧ d.length = data.length ∧
      ∀ j, j < qty.toNat → (d.getD (j / 8) 0).getLsbD (j % 8) = (data.getD (j / 8) 0).getLsbD (j % 8) := by
  obtain ⟨-, hwrites⟩ := wrCoilsWritesTheRange
  obtain ⟨t, ht, -, hwrote, -⟩ := hwrites s id addr qty bc data hwf hqty hrange hbc hlen
  have hrange' : addr.toNat + qty.toNat ≤ t.mem.co.size := hrange.trans_eq hwrote.1.symm
  obtain ⟨⟨-, hreads⟩, -⟩ := bitReadsAnswerPackedBits
  obtain ⟨u, d, hu, hdlen, -, hd, ⟨hreply, -⟩, -⟩ := hreads t id' addr qty hqty hrange' hcap
  have hlength : d.length = bc.toNat := hdlen.trans hbc.symm
  refine ⟨t, u, d, ht, hu, by rw [hreply, ofNat_length_eq hlength], hlength.trans hlen.symm, fun j hj => ?_⟩
  rw [hd (j / 8) (j % 8) (by omega) (by omega), Nat.div_add_mod, hwrote.read_add hj]
  simp [hj]

/-- Settles O20: the bank has the written elements (O15, O16), and a read of the range answers them (O9, O10). -/
theorem multipleWriteThenReadReturnsTheData : Obligations.MultipleWriteThenReadReturnsTheData := by
  intro s id id' addr qty bc data hwf hqty hlen
  exact ⟨fun hrange hbc hcap => rdHolding_of_wrRegs hwf hqty hlen hrange hbc hcap id id',
    fun hrange hbc hcap => rdCoils_of_wrCoils hwf hqty hlen hrange hbc hcap id id'⟩

/-! ## Requests that do not fit in a frame (R144) -/

/-- A request for a range that meets the trap's further condition writes nothing, whatever its address. -/
theorem RangeTraps.mem_eq {i : Instr} {size addr qty : Nat} {bad : Prop} {s : State}
    (h : RangeTraps i size addr qty bad s) (hbad : bad) : ∃ t, exec i s = .next t ∧ t.mem = s.mem := by
  obtain ⟨haddress, hvalue⟩ := h
  rcases Nat.lt_or_ge addr size with hlt | hge
  · obtain ⟨t, ht, -, hmem, -⟩ := hvalue hlt (.inr (.inr hbad))
    exact ⟨t, ht, hmem⟩
  · obtain ⟨t, ht, -, hmem, -⟩ := haddress hge
    exact ⟨t, ht, hmem⟩

/-- A multiple write whose payload does not have its declared length writes nothing (R140). -/
theorem exec_multiRow_of_length_ne {fc : Byte} {mk} (h : multiRows.lookup fc = some mk) {bc : Byte} {data : List Byte}
    (hlen : data.length ≠ bc.toNat) (id : Byte) (addr qty : Word) (s : State) :
    ∃ t, exec (mk id addr qty bc data) s = .next t ∧ t.mem = s.mem := by
  obtain ⟨hcoils, hregs⟩ := multipleWritesTrapAndWriteNothing s id addr qty bc data
  rcases multiRows_lookup h with ⟨-, rfl⟩ | ⟨-, rfl⟩
  · exact hcoils.mem_eq (.inr hlen)
  · exact hregs.mem_eq (.inr hlen)

theorem fixedRows_lookup_of_multiRow {fc : Byte} {mk} (h : multiRows.lookup fc = some mk) :
    fixedRows.lookup fc = none := by
  rcases multiRows_lookup h with ⟨rfl, -⟩ | ⟨rfl, -⟩ <;> rfl

/-- A multiple write cut off within its payload is dispatched with what is left of it, and writes nothing. -/
theorem dispatchBody_take_encode {fc : Byte} {mk} (h : multiRows.lookup fc = some mk) (id : Byte) (addr qty : Word)
    {bc : Byte} {data : List Byte} (hlen : data.length = bc.toNat) {n : Nat} (hn : n < data.length) (s : State) :
    ∃ t, dispatchBody ((encode (mk id addr qty bc data)).take (7 + n)) s = .next t ∧ t.mem = s.mem := by
  have hbody : (encode (mk id addr qty bc data)).take (7 + n) = head6 id fc addr qty ++ bc :: data.take n := by
    rw [encode_of_multiRow h, Nat.add_comm]
    rfl
  rw [hbody, dispatchBody_instr (decode_head6_append (fixedRows_lookup_of_multiRow h) h id addr qty bc _)]
  refine exec_multiRow_of_length_ne h ?_ id addr qty s
  rw [List.length_take]
  omega

/-- The body left of a request whose frame is longer than the capture (R91, R93, R94): with CRC checking on, the last two
bytes captured are taken for its CRC. -/
theorem checkFrame_ok_of_overlong {crcEn : Bool} {q p : List Byte} (hlong : 256 < (withCrc crcEn q).length)
    (h : checkFrame crcEn (frameOf (withCrc crcEn q)) = .ok p) :
    p = q.take (256 - if crcEn then 2 else 0) := by
  obtain ⟨hp, -⟩ := checkFrame_ok h
  rw [withCrc_length] at hlong
  have hframe : (frameOf (withCrc crcEn q)).length = 256 := by
    rw [frameOf, List.length_take, withCrc_length]
    omega
  rw [hp, hframe, frameOf, List.take_take]
  cases crcEn with
  | false => rfl
  | true =>
    simp only [if_true] at hlong ⊢
    exact List.take_append_of_le_length (by omega)

/-- A frame none of whose bodies writes when dispatched writes nothing: otherwise it is dropped. -/
theorem processFrame_mem {s : State} (dev : Byte)
    (h : ∀ p, checkFrame s.crcEn s.frame = .ok p → ∃ t, dispatchBody p (loadBody p s) = .next t ∧ t.mem = s.mem) :
    ∃ t, processFrame dev s = .next t ∧ t.mem = s.mem := by
  unfold processFrame
  split
  · exact ⟨_, rfl, rfl⟩
  · split
    · exact h _ ‹_›
    · exact ⟨_, rfl, rfl⟩

/-- The step of a multiple write that does not fit in a frame writes nothing. -/
theorem step_overlong_mem {fc : Byte} {mk} (h : multiRows.lookup fc = some mk) {s : State} {dev : Byte}
    {rx late : List Byte} (ht : Transacts s dev rx late) {id : Byte} {addr qty : Word} {bc : Byte} {data : List Byte}
    (hlen : data.length = bc.toNat) (hrx : rx = withCrc s.crcEn (encode (mk id addr qty bc data)))
    (hlong : 256 < rx.length) : ∃ t, step s = .next t ∧ t.mem = s.mem := by
  have hlength : rx.length = 7 + data.length + if s.crcEn then 2 else 0 := by
    rw [hrx, withCrc_length, encode_of_multiRow h]
    simp only [head6, List.length_append, List.length_cons, List.length_nil]
    omega
  have hcut : 256 - (if s.crcEn then 2 else 0) = 7 + (249 - if s.crcEn then 2 else 0) := by
    split <;> rfl
  obtain ⟨u, hu, hmem⟩ := processFrame_mem (s := captureFrame rx late (beginStep s)) dev fun p hp => by
    subst hrx
    rw [checkFrame_ok_of_overlong hlong hp, hcut]
    exact dispatchBody_take_encode h id addr qty hlen (by omega) _
  refine ⟨endTransaction u, ?_, hmem⟩
  rw [step_transacts ht, hu, finish_next]

/-- Settles O38: the capture cuts the request off within its payload, which then misses its declared length. -/
theorem overlongMultipleWriteWritesNothing : Obligations.OverlongMultipleWriteWritesNothing := by
  rintro s dev rx late id addr qty bc data i ht (rfl | rfl) hlen hrx hlong
  · exact step_overlong_mem (fc := fcWrCoils) rfl ht hlen hrx hlong
  · exact step_overlong_mem (fc := fcWrRegs) rfl ht hlen hrx hlong

end Sys2Proof.Machine
end

section
/-! The family of exceptions and host commands (60_exceptions.md): what an exception reply carries and leaves alone (R152,
R153, R156), the silent drops (R151), what each host command does or is refused for (R160), and that the host and the wire
see one register file (R162). -/

namespace Sys2Proof.Machine

/-! ## Exception replies (R105, R152, R153) -/

/-- The three exception codes (R152). -/
theorem toByte_cases (c : ExcCode) : c.toByte = 0x01 ∨ c.toByte = 0x02 ∨ c.toByte = 0x03 := by
  cases c <;> decide

/-- ILLEGAL_FUNCTION has a code byte of its own (R152). -/
theorem toByte_eq_one_iff (c : ExcCode) : c.toByte = 0x01 ↔ c = .illegalFunction := by
  cases c <;> decide

theorem classify_exception_iff (raised : Bool) (id : Byte) :
    some (classify raised id) = some .exception ∨ some (classify raised id) = some .bcastException ↔ raised = true := by
  by_cases h : id = 0#8 <;> cases raised <;> simp [classify, h]

theorem classify_normal_iff (raised : Bool) (id : Byte) :
    some (classify raised id) = some .normal ∨ some (classify raised id) = some .bcastNormal ↔ raised = false := by
  by_cases h : id = 0#8 <;> cases raised <;> simp [classify, h]

/-- Settles O25: an instruction ends in `takeException`, whose outcome is no normal one, or in a normal reply, whose
outcome is no exception. -/
theorem exceptionRepliesCarryTheirCode : Obligations.ExceptionRepliesCarryTheirCode := by
  intro i s
  rcases exec_cases i s with ⟨c, hexec, hc⟩ | ⟨r, m, hexec, -⟩
  · refine ⟨_, hexec, fun _ => ⟨c.toByte, rfl, toByte_cases c, (toByte_eq_one_iff c).trans hc⟩, fun hnormal => ?_⟩
    exact absurd ((classify_normal_iff true i.id).1 hnormal) (by decide)
  · refine ⟨_, hexec, fun hexc => ?_, fun _ => rfl⟩
    exact absurd ((classify_exception_iff false i.id).1 hexc) (by decide)

/-! ## Silent drops (R151) -/

/-- A captured frame shorter than the structural checks ask for is DROP_SHORT (R93, R94). -/
theorem checkFrame_short {crcEn : Bool} {f : List Byte} (h : f.length < if crcEn = true then 4 else 2) :
    checkFrame crcEn f = .error .dropShort := by
  cases crcEn with
  | false => exact if_pos h
  | true => exact if_pos h

/-- A delivered body under an id that is not accepted is DROP_ID (R95). -/
theorem step_of_foreign_id {s : State} {dev : Byte} {rx late p : List Byte} (h : Transacts s dev rx late)
    (hp : DeliversBody s rx p) (hbroadcast : p.getD 0 0 ≠ 0x00) (hdev : p.getD 0 0 ≠ dev) :
    step s = .next (endTransaction (dropFrame .dropId (loadBody p (captureFrame rx late (beginStep s))))) := by
  have hcheck : checkFrame (captureFrame rx late (beginStep s)).crcEn (captureFrame rx late (beginStep s)).frame =
      .ok p := checkFrame_of_deliversBody hp
  have hrejects : ¬ acceptsId dev (p.getD 0 0) = true := by
    simpa only [acceptsId, Bool.or_eq_true, decide_eq_true_eq, not_or] using ⟨hbroadcast, hdev⟩
  rw [step_transacts h, processFrame, hcheck]
  simp only [hrejects]
  rfl

/-- A step that ends in dropping the frame records nothing, wherever the drop happened. -/
theorem drop_records_nothing {s s' : State} {o : TxnOutcome} (hstep : step s = .next (endTransaction (dropFrame o s')))
    (hsame : SamePersistent s s') :
    ∃ t, step s = .next t ∧ t.outcome = some o ∧ t.tx = [] ∧ SamePersistent s t ∧ t.rx = [] :=
  ⟨_, hstep, rfl, rfl, hsame, rfl⟩

/-- Settles O28: each cause stops the frame at its own check, before anything but the datapath is written. -/
theorem silentDropsRecordNothing : Obligations.SilentDropsRecordNothing := by
  intro s dev rx late h
  refine ⟨fun hshort => ?_, fun p x y hcrc hlen hframe hne => ?_, fun p hp hbroadcast hdev => ?_⟩
  · exact drop_records_nothing (step_of_checkFrame_error h (checkFrame_short hshort)) ⟨rfl, rfl, rfl, rfl⟩
  · have hcheck : checkFrame s.crcEn (frameOf rx) = .error .dropCrc := by
      rw [hcrc, hframe, checkFrame_append p x y hlen, if_neg hne]
    exact drop_records_nothing (step_of_checkFrame_error h hcheck) ⟨rfl, rfl, rfl, rfl⟩
  · exact drop_records_nothing (step_of_foreign_id h hp hbroadcast hdev) ⟨rfl, rfl, rfl, rfl⟩

/-! ## Exceptions change no state (R156) -/

/-- A host command is no transaction and has no classification. -/
theorem HostEnd.outcome_eq {s t : State} (h : HostEnd s t) : t.outcome = s.outcome := by
  cases h <;> rfl

/-- Settles O34: of the ways a step can end, only a frame that raises has an exception as its outcome. -/
theorem exceptionsChangeNoState : Obligations.ExceptionsChangeNoState := by
  intro s t hstep hexc
  cases step_next hstep with
  | unbound rx late hm hd => exact absurd hexc (by simp)
  | idle late dev hm hd => exact absurd hexc (by simp)
  | host c hm => exact absurd hexc (by simp [(hostCommand_cases c (beginStep s)).outcome_eq])
  | frame rx late dev p acc u hm hd hr hu =>
    cases hu with
    | drop o ho => rcases ho with rfl | rfl | rfl <;> exact absurd hexc (by simp)
    | answer id fc r m => exact absurd ((classify_exception_iff false id).1 hexc) (by decide)
    | raise id fc c hok hc =>
      obtain ⟨hid, hfc, -⟩ := hok
      exact ⟨⟨rfl, rfl, rfl, rfl⟩, rfl, rfl, rx, late, id, fc, c.toByte, hm, hid, hfc, toByte_cases c,
        (toByte_eq_one_iff c).trans hc, congrArg some (classify_eq_outcomeRow true id), rfl⟩

/-! ## Host access inside a bank (R160) -/

theorem hostCommand_readBit {b : BitBank} {i : Nat} {s : State} (hi : i < (s.mem.bits b).size) :
    hostCommand (.readBit b i) s = { s with hostValue := some (.bit ((s.mem.bits b).read i)) } :=
  if_neg (Nat.not_le.2 hi)

theorem hostCommand_readWord {b : WordBank} {i : Nat} {s : State} (hi : i < (s.mem.words b).size) :
    hostCommand (.readWord b i) s = { s with hostValue := some (.word ((s.mem.words b).read i)) } :=
  if_neg (Nat.not_le.2 hi)

theorem hostCommand_writeBit {b : BitBank} {i : Nat} {s : State} (hi : i < (s.mem.bits b).size) (v : Bool) :
    hostCommand (.writeBit b i v) s = putMem (s.mem.setBits b ((s.mem.bits b).write i v)) s :=
  if_neg (Nat.not_le.2 hi)

theorem hostCommand_writeWord {b : WordBank} {i : Nat} {s : State} (hi : i < (s.mem.words b).size) (v : Word) :
    hostCommand (.writeWord b i v) s = putMem (s.mem.setWords b ((s.mem.words b).write i v)) s :=
  if_neg (Nat.not_le.2 hi)

/-- Settles O45: a HostRead sets the returned value only, a HostWrite puts the written bank in its place. -/
theorem hostAccessReadsAndWritesOneElement : Obligations.HostAccessReadsAndWritesOneElement := by
  intro s i hs hwf
  refine ⟨fun b hi => ⟨fun hm => ?_, fun v hm => ?_⟩, fun b hi => ⟨fun hm => ?_, fun v hm => ?_⟩⟩
  · rw [step_host hs hm, hostCommand_readBit (s := beginStep s) hi]
    exact ⟨_, rfl, rfl, rfl, rfl, rfl, rfl⟩
  · rw [step_host hs hm, hostCommand_writeBit (s := beginStep s) hi]
    exact ⟨_, rfl, by simp, fun k => by simp [read_write _ i k v (bits_wf _ b hwf)],
      fun b' hb' => bits_setBits_of_ne _ _ _ _ hb', fun w => words_setBits .., rfl, rfl, hs⟩
  · rw [step_host hs hm, hostCommand_readWord (s := beginStep s) hi]
    exact ⟨_, rfl, rfl, rfl, rfl, rfl, rfl⟩
  · rw [step_host hs hm, hostCommand_writeWord (s := beginStep s) hi]
    exact ⟨_, rfl, by simp, fun k => by simp [read_write _ i k v (words_wf _ b hwf)],
      fun b' hb' => words_setWords_of_ne _ _ _ _ hb', fun w => bits_setWords .., rfl, rfl, hs⟩

/-! ## Configuration and refusal (R160) -/

/-- BindId of an id in the range of R28. -/
theorem hostCommand_bindId {id : Nat} (hmin : 1 ≤ id) (hmax : id ≤ 255) (s : State) :
    hostCommand (.bindId id) s = { s with deviceId := some (BitVec.ofNat 8 id) } :=
  if_neg (by omega)

/-- Settles O43: each command sets its register in the state the step's move works on. -/
theorem configurationCommandsSetTheirRegister : Obligations.ConfigurationCommandsSetTheirRegister := by
  intro s c hs hm
  refine ⟨?_, ?_, ?_⟩
  · rintro id rfl hmin hmax
    refine ⟨BitVec.ofNat 8 id, ?_, ?_⟩
    · rw [BitVec.toNat_ofNat, Nat.mod_eq_of_lt (by omega)]
    · rw [step_host hs hm, hostCommand_bindId hmin hmax]
      rfl
  · rintro en rfl
    exact step_host hs hm
  · rintro rfl
    exact step_host hs hm

/-- Settles O46: each clause is the condition its command tests before it does anything. -/
theorem refusedCommandsOnlySetTheMark : Obligations.RefusedCommandsOnlySetTheMark := by
  intro s c hs hm hrefused
  have hmarks : hostCommand c (beginStep s) = markRefused (beginStep s) := by
    rcases hrefused with ⟨id, rfl, h⟩ | ⟨b, n, rfl, h⟩ | ⟨b, n, rfl, h⟩ | ⟨b, i, rfl, h⟩ | ⟨b, i, rfl, h⟩ |
      ⟨b, i, v, rfl, h⟩ | ⟨b, i, v, rfl, h⟩
    all_goals exact if_pos h
  rw [step_host hs hm, hmarks]
  rfl

/-! ## One register file (R162) -/

/-- A read of an element just written answers it, whatever state the request runs in. -/
theorem readBits_of_write_reply {b : Bank Bool} {addr : Word} (hb : b.wf) (haddr : addr.toNat < b.size) (v : Bool)
    (id fc : Byte) (s : State) :
    (readBits (b.write addr.toNat v) id fc addr 1 s).reply = [id, fc, 0x01, if v then 0x01 else 0x00] := by
  rw [readBits_one_reply (b := b.write _ v) haddr, read_write _ _ _ _ hb, if_pos rfl]

theorem readWords_of_write_reply {b : Bank Word} {addr : Word} (hb : b.wf) (haddr : addr.toNat < b.size) (v : Word)
    (id fc : Byte) (s : State) :
    (readWords (b.write addr.toNat v) id fc addr 1 s).reply = [id, fc, 0x02, hi8 v, lo8 v] := by
  rw [readWords_one_reply (b := b.write _ v) haddr, read_write _ _ _ _ hb, if_pos rfl]

/-- HostRead of element `j` of a written range returns the `j`-th value written. -/
theorem WroteCoils.hostRead_add {m : Memory} {t : State} {addr n : Nat} {f : Nat → Bool}
    (h : WroteCoils m t.mem addr n f) (hrange : addr + n ≤ m.co.size) {j : Nat} (hj : j < n) :
    (hostCommand (.readBit .co (addr + j)) t).hostValue = some (.bit (f j)) := by
  have ⟨hsize, _⟩ := h
  have hi : addr + j < t.mem.co.size := by omega
  rw [hostCommand_readBit (b := .co) hi, ← h.read_add hj]
  rfl

theorem WroteRegs.hostRead_add {m : Memory} {t : State} {addr n : Nat} {f : Nat → Word}
    (h : WroteRegs m t.mem addr n f) (hrange : addr + n ≤ m.hr.size) {j : Nat} (hj : j < n) :
    (hostCommand (.readWord .hr (addr + j)) t).hostValue = some (.word (f j)) := by
  have ⟨hsize, _⟩ := h
  have hi : addr + j < t.mem.hr.size := by omega
  rw [hostCommand_readWord (b := .hr) hi, ← h.read_add hj]
  rfl

theorem hostRead_of_wrCoil {s : State} {addr value : Word} (hwf : s.mem.wf) (haddr : addr.toNat < s.mem.co.size)
    (hvalue : value = 0xFF00 ∨ value = 0x0000) (id : Byte) :
    ∃ t, exec (.wrCoil id addr value) s = .next t ∧
      (hostCommand (.readBit .co addr.toNat) t).hostValue = some (.bit (decide (value = 0xFF00))) := by
  obtain ⟨-, hrule⟩ := wrCoilWritesOneCoil
  obtain ⟨-, -, hwrites⟩ := hrule s id addr value
  obtain ⟨t, ht, -, hwrote, -⟩ := hwrites hwf haddr hvalue
  exact ⟨t, ht, hwrote.hostRead_add haddr (j := 0) Nat.one_pos⟩

theorem hostRead_of_wrReg {s : State} {addr : Word} (hwf : s.mem.wf) (haddr : addr.toNat < s.mem.hr.size) (value : Word)
    (id : Byte) :
    ∃ t, exec (.wrReg id addr value) s = .next t ∧
      (hostCommand (.readWord .hr addr.toNat) t).hostValue = some (.word value) := by
  obtain ⟨-, hrule⟩ := wrRegWritesOneRegister
  obtain ⟨-, hwrites⟩ := hrule s id addr value
  obtain ⟨t, ht, -, hwrote, -⟩ := hwrites hwf haddr
  exact ⟨t, ht, hwrote.hostRead_add haddr (j := 0) Nat.one_pos⟩

/-- Settles O47: host and requests read and write through the same banks, and what the write codes leave there is O13's to
O16's. -/
theorem hostAndWireSeeOneRegisterFile : Obligations.HostAndWireSeeOneRegisterFile := by
  intro s id addr hwf
  have ⟨hco, hdi, hhr, hir⟩ := hwf
  refine ⟨fun v => ⟨fun haddr => ?_, fun haddr => ?_⟩, fun v => ⟨fun haddr => ?_, fun haddr => ?_⟩,
    fun v => ⟨fun haddr hv => hostRead_of_wrCoil hwf haddr hv id, fun haddr => hostRead_of_wrReg hwf haddr v id⟩,
    fun qty bc data hqty hlen => ⟨fun hrange hbc => ?_, fun hrange hbc => ?_⟩⟩
  · rw [hostCommand_writeBit (b := .co) haddr]
    exact ⟨_, rfl, readBits_of_write_reply hco haddr v id _ _⟩
  · rw [hostCommand_writeBit (b := .di) haddr]
    exact ⟨_, rfl, readBits_of_write_reply hdi haddr v id _ _⟩
  · rw [hostCommand_writeWord (b := .hr) haddr]
    exact ⟨_, rfl, readWords_of_write_reply hhr haddr v id _ _⟩
  · rw [hostCommand_writeWord (b := .ir) haddr]
    exact ⟨_, rfl, readWords_of_write_reply hir haddr v id _ _⟩
  · obtain ⟨-, hwrites⟩ := wrCoilsWritesTheRange
    obtain ⟨t, ht, -, hwrote, -⟩ := hwrites s id addr qty bc data hwf hqty hrange hbc hlen
    exact ⟨t, ht, fun j hj => hwrote.hostRead_add hrange hj⟩
  · obtain ⟨-, hwrites⟩ := wrRegsWritesTheRange
    obtain ⟨t, ht, -, hwrote, -⟩ := hwrites s id addr qty bc data hwf hqty hrange hbc hlen
    exact ⟨t, ht, fun j hj => hwrote.hostRead_add hrange hj⟩

end Sys2Proof.Machine
end

section
/-! The family of reset and hazards (70_reset_and_hazards.md): what an unbound transaction does and what follows it
(R181). -/

namespace Sys2Proof.Machine

/-- An unbound poll marks the state its move works on, whatever the transport yields. -/
theorem step_unbound {s : State} {rx late : List Byte} (hs : s.refused = false) (hm : nextMove s = .poll rx late)
    (hd : s.deviceId = none) : step s = .next (markRefused (beginStep s)) := by
  rw [step_unmarked hs, hm]
  exact transaction_unbound rx late hd

/-- Settles O40: the state the move works on is `s` with its move taken and input and outputs cleared, and the mark is all
that an unbound transaction adds. -/
theorem unboundTransactionIsRefused : Obligations.UnboundTransactionIsRefused :=
  fun _ _ _ hs hm hd => step_unbound hs hm hd

/-- Settles O41: a step looks at the mark before it takes a move. -/
theorem markedStatesHaveNoNextState : Obligations.MarkedStatesHaveNoNextState :=
  fun _ h => step_marked h

end Sys2Proof.Machine
end
